-- ==== Sys2Proof/Word.lean ====
section
/-! DEFINITION. The unit and scalar widths of the block (10_state.md R11 to R13, 40_checksum.md R66). -/

namespace Sys2Proof

/-- A byte: one unit of a byte buffer, a version byte, a command word (R12, R11, R16). -/
abbrev Byte := BitVec 8

/-- A group: one unit of a group buffer, one base32 digit (R12). -/
abbrev Group := BitVec 5

/-- A value of the checksum engine's 40-bit accumulator (R66). -/
abbrev Acc := BitVec 40

/-- The five generator constants of the checksum recurrence, indexed by the bit of `c0` that selects them (R5, R66). -/
abbrev Generators := Fin 5 → Acc

end Sys2Proof
end

