-- ==== Sys2Proof/Syntax.lean ====
section
/-! DEFINITION. The eleven commands of 30_encoding.md R46, one constructor per row of the opcode table, and the
fields of the command word format C8 (R45). -/

namespace Sys2Proof

/-- The command set (R46). The only immediate is the `pad` argument of the two repackagers, `CMD[4]` (R45). -/
inductive Instr where
  | polymod
  | cksum
  | verify
  | r8to5 (pad : Bool)
  | r5to8 (pad : Bool)
  | mkver
  | verchk
  | b32enc
  | b32dec
  | encode
  | decode
deriving DecidableEq, Repr

/-- The three fields of a command word: `CMD[7:5]`, `CMD[4]`, `CMD[3:0]` (R45). -/
structure CmdFields where
  rsv : BitVec 3
  pad : Bool
  op  : BitVec 4
deriving DecidableEq, Repr

/-- Why a byte is not a legal command word (R47). Each one makes the block raise `IllegalCommand`. -/
inductive DecodeError where
  | reservedBits     -- `CMD[7:5]` is not `000`
  | unassignedOp     -- `OP` in `0x0, 0xC, 0xD, 0xE, 0xF`
  | padNotAllowed    -- `PAD = 1` with an `OP` other than `0x4` and `0x5`
deriving DecidableEq, Repr

end Sys2Proof
end

