-- ==== Sys2Proof/WellFormed.lean ====
section
/-! DEFINITION. Which field triples form a legal command word (30_encoding.md R45, R46, R47). Every `Instr` is well
formed by its type, so the checks are on the fields of a word. -/

namespace Sys2Proof

/-- `CMD[7:5]` is written as zero (R45). -/
def CmdFields.rsvOk (f : CmdFields) : Bool := f.rsv == 0

/-- `OP` is one of the eleven assigned numbers `0x1` to `0xB` (R46). -/
def CmdFields.opOk (f : CmdFields) : Bool := decide (1 ≤ f.op.toNat ∧ f.op.toNat ≤ 11)

/-- `PAD` is 0 for every command but the two repackagers, `OP = 0x4` and `OP = 0x5` (R45). -/
def CmdFields.padOk (f : CmdFields) : Bool := !f.pad || f.op == 4 || f.op == 5

/-- A legal command word's fields (R47). -/
def CmdFields.wellFormed (f : CmdFields) : Bool := f.rsvOk && f.opOk && f.padOk

end Sys2Proof
end

