-- ==== Sys2Proof/Decode.lean ====
section
/-! DEFINITION. Decoding and encoding of the command word (30_encoding.md R45, R46, R47). The decoder is total on the
256 bytes and rejects the 243 illegal ones by name. -/

namespace Sys2Proof

/-- The fields of a command word: `CMD[7:5]`, `CMD[4]`, `CMD[3:0]` (R45). -/
def splitWord (b : Byte) : CmdFields where
  rsv := b.extractLsb' 5 3
  pad := b.getLsbD 4
  op  := b.extractLsb' 0 4

/-- The command word with the given fields, `RSV` in the top three bits and `OP` in the low four (R45). -/
def joinWord (f : CmdFields) : Byte := f.rsv ++ BitVec.ofBool f.pad ++ f.op

/-- The command that the fields name (the table of R46), or why there is none (R47). -/
def decodeFields (f : CmdFields) : Except DecodeError Instr :=
  if !f.rsvOk then .error .reservedBits
  else if !f.opOk then .error .unassignedOp
  else if !f.padOk then .error .padNotAllowed
  else match f.op.toNat with
    | 1  => .ok .polymod
    | 2  => .ok .cksum
    | 3  => .ok .verify
    | 4  => .ok (.r8to5 f.pad)
    | 5  => .ok (.r5to8 f.pad)
    | 6  => .ok .mkver
    | 7  => .ok .verchk
    | 8  => .ok .b32enc
    | 9  => .ok .b32dec
    | 10 => .ok .encode
    | 11 => .ok .decode
    | _  => .error .unassignedOp

/-- The command a byte written to `CMD` names (R46), or why it is illegal (R47). -/
def decode (b : Byte) : Except DecodeError Instr := decodeFields (splitWord b)

/-- The fields of each command's word (the table of R46). -/
def Instr.fields : Instr → CmdFields
  | .polymod   => ⟨0, false, 0x1⟩
  | .cksum     => ⟨0, false, 0x2⟩
  | .verify    => ⟨0, false, 0x3⟩
  | .r8to5 pad => ⟨0, pad, 0x4⟩
  | .r5to8 pad => ⟨0, pad, 0x5⟩
  | .mkver     => ⟨0, false, 0x6⟩
  | .verchk    => ⟨0, false, 0x7⟩
  | .b32enc    => ⟨0, false, 0x8⟩
  | .b32dec    => ⟨0, false, 0x9⟩
  | .encode    => ⟨0, false, 0xA⟩
  | .decode    => ⟨0, false, 0xB⟩

/-- The byte the host writes to `CMD` to issue a command (R46). -/
def encode (i : Instr) : Byte := joinWord i.fields

/-- What the decoder reads from an instruction whose `nbits` bits are `w`. Every command is one byte (R45), so bits
above `nbits` up to bit 7 are zero and a word of more than eight bits is no command. -/
def decodeTableWord (nbits w : Nat) : Option Instr :=
  if nbits ≤ 8 ∧ w < 2 ^ nbits then
    match decode (BitVec.ofNat 8 w) with
    | .ok i    => some i
    | .error _ => none
  else none

end Sys2Proof
end

