-- ==== Sys2Proof/Config.lean ====
section
/-! DEFINITION. The OPEN parameters of 00_scope.md section 4 (R5, R6, R7), and what R23 of 10_state.md leaves
'unspecified' at reset: constants without a body, so that no proof sees a value. Each constraint of the spec holds by the
way the constant is built (log entries 1 and 2). -/

namespace Sys2Proof

/-- `Cfg.G`, the five generator constants; the spec gives none of their values (R5). -/
opaque Config.generator : Generators

/-- How far `Cfg.TYPE_MAX` lies above its lower bound 1 (R6). -/
opaque Config.typeMaxRoom : Fin 31

/-- `Cfg.TYPE_MAX`, the largest `version_type` the encoder accepts, from 1 to 31 (R6). -/
def Config.typeMax : Nat := Config.typeMaxRoom.val + 1

/-- How far `Cfg.PFX_MAX` lies above its lower bound 1 (R7). -/
opaque Config.pfxRoom : Nat

/-- `Cfg.PFX_MAX`, the capacity of the two prefix buffers in units, at least 1 (R7). -/
def Config.pfxMax : Nat := Config.pfxRoom + 1

/-- How far `Cfg.DATA_MAX` lies above its lower bound `PFX_MAX + 1 + 112` (R7). -/
opaque Config.dataRoom : Nat

/-- `Cfg.DATA_MAX`, the capacity of the four data buffers in units, at least `PFX_MAX + 1 + 112` (R7). -/
def Config.dataMax : Nat := Config.dataRoom + Config.pfxMax + 113

/-- The bytes behind `Config.resetPfx`. -/
opaque Config.storedPfx : List Byte

/-- The bytes behind `Config.resetBytes`. -/
opaque Config.storedBytes : List Byte

/-- The groups behind `Config.resetGrps`. -/
opaque Config.storedGrps : List Group

/-- What the storage of `OP.PFX` holds after reset: 'unspecified' (R23), within the capacity (log entry 2). -/
def Config.resetPfx : List Byte := Config.storedPfx.take Config.pfxMax

/-- What the storage of `OP.BYTES` holds after reset: 'unspecified' (R23), within the capacity (log entry 2). -/
def Config.resetBytes : List Byte := Config.storedBytes.take Config.dataMax

/-- What the storage of `OP.GRPS` holds after reset: 'unspecified' (R23), within the capacity (log entry 2). -/
def Config.resetGrps : List Group := Config.storedGrps.take Config.dataMax

/-- What the storage of `OP.TYPE` holds after reset: 'unspecified' (R23, log entry 2). -/
opaque Config.resetType : Byte

/-- What the storage of `OP.VER` holds after reset: 'unspecified' (R23, log entry 2). -/
opaque Config.resetVer : Byte

/-- What the storage of `OP.HLEN` holds after reset: 'unspecified' (R23, log entry 2). -/
opaque Config.resetHlen : Byte

end Sys2Proof
end

