-- ==== Sys2Proof/Machine/State.lean ====
section
/-! DEFINITION. The state of one instance of the block (10_state.md R10 to R17), the host's pending actions, and the
state after reset (R23, 70_reset_and_hazards.md R155). -/

namespace Sys2Proof.Machine

/-- The six operand registers by name (R11, R12). -/
inductive OpReg where
  | pfx | bytes | grps | type | ver | hlen
deriving DecidableEq, Repr

/-- The nine result registers by name (R12, R13). -/
inductive ResReg where
  | pfx | bytes | grps | ver | type | sc | hlen | ck | flag
deriving DecidableEq, Repr

/-- The registers a host may name in a read: operand and result registers, `ST`, its two fields, and `CMD` (R14, R58). -/
inductive Port where
  | op (r : OpReg)
  | res (r : ResReg)
  | st | stDone | stErr
  | cmd
deriving DecidableEq, Repr

/-- The registers the host has no write access to: the result registers and `ST` (R14). -/
inductive ReadOnlyPort where
  | res (r : ResReg)
  | st
deriving DecidableEq, Repr

/-- A value that passes between the host and a register: a byte sequence, a group sequence or a number (R58). -/
inductive Value where
  | bytes (v : List Byte)
  | groups (v : List Group)
  | scalar (n : Nat)
deriving DecidableEq, Repr

/-- One host action (R14, R36, R58, R59) or the reset event (R155). -/
inductive HostAction where
  /-- `WR <operand register>, <value>`. -/
  | write (r : OpReg) (v : Value)
  /-- `WR <operand register>, t` for the host variable `t` of the last read: the second half of `CP` (R59). -/
  | writeVar (r : OpReg)
  /-- An attempt to write a register the host may not write (R14). -/
  | writeReadOnly (p : ReadOnlyPort)
  /-- A write of a byte to `CMD`, which runs the command it names (R16). -/
  | command (b : Byte)
  /-- `RD <register> -> t`. -/
  | read (p : Port)
  /-- The reset event of the platform (R155). -/
  | reset
deriving DecidableEq, Repr

/-- What an operand register holds, and whether the host has written it since reset: 'unwritten' is a state of the spec's
own (R23, 93_implementation_defined.md U22), in which the storage still holds something (R162, log entry 2). A host write
makes the register written for good (R23). -/
inductive Held (α : Type) where
  | unwritten (v : α)
  | written (v : α)
deriving DecidableEq, Repr

/-- The value the storage of a register holds, written or not. -/
def Held.value {α : Type} : Held α → α
  | .unwritten v => v
  | .written v   => v

/-- Whether the host has written the register since reset (R23). -/
def Held.isWritten {α : Type} : Held α → Bool
  | .unwritten _ => false
  | .written _   => true

/-- The value the host last wrote to the register since reset, if it wrote one (R14). -/
def Held.lastWritten {α : Type} : Held α → Option α
  | .unwritten _ => none
  | .written v   => some v

/-- The operand registers (R11, R12). -/
structure Operands where
  pfx   : Held (List Byte)
  bytes : Held (List Byte)
  grps  : Held (List Group)
  type  : Held Byte
  ver   : Held Byte
  hlen  : Held Byte
deriving DecidableEq, Repr

/-- The result registers (R12, R13). `none` is the spec's own state 'invalid' (R15). -/
structure Results where
  pfx   : Option (List Byte)
  bytes : Option (List Byte)
  grps  : Option (List Group)
  ver   : Option Byte
  type  : Option (BitVec 5)
  sc    : Option (BitVec 3)
  hlen  : Option (BitVec 7)
  ck    : Option Acc
  flag  : Option Bool
deriving DecidableEq, Repr

/-- Every operand register unwritten, its storage holding what the spec leaves unspecified (R23, log entry 2). -/
def Operands.unwritten : Operands where
  pfx := .unwritten Config.resetPfx
  bytes := .unwritten Config.resetBytes
  grps := .unwritten Config.resetGrps
  type := .unwritten Config.resetType
  ver := .unwritten Config.resetVer
  hlen := .unwritten Config.resetHlen

/-- Every result register invalid (R15, R23). -/
def Results.invalid : Results where
  pfx := none
  bytes := none
  grps := none
  ver := none
  type := none
  sc := none
  hlen := none
  ck := none
  flag := none

/-- The machine: the block's registers, and the host's side of the interface. -/
structure State where
  /-- The operand registers (R11, R12). -/
  op      : Operands
  /-- The result registers with their validity (R12, R13, R15). -/
  res     : Results
  /-- The status register `ST` (R17). -/
  st      : BitVec 8
  /-- MODEL: the host's actions still to come, oldest first (R39); not part of the block (log entry 3). -/
  script  : List HostAction
  /-- MODEL: the host variable that the last read filled (R58); not part of the block (log entry 3). -/
  hostVar : Option Value
deriving DecidableEq, Repr

/-- Why the machine would stop with a fault. No constructor: a command never hangs and never ends in a third state
(60_exceptions.md R136, R38), and the block's errors are next states (R134), so nothing raises one. -/
inductive Fault where
deriving DecidableEq, Repr

/-- Why the model declines a host action: the host errors of 60_exceptions.md R130, treated as 'refuse' in
93_implementation_defined.md U20, U21, U25 to U27: 'the model has no transition for the host action', so nothing can be
proved about what follows it. All are safe. -/
inductive Refusal where
  /-- Raised by `exec` for an instruction without a meaning; no arm of this model answers with it. Safe. -/
  | notModelled (mnemonic : String)
  /-- Raised by a legal command that reads the operand `r` while `r` is unwritten since reset: it does not run (R162, R23,
  U21). Safe. -/
  | unwrittenOperand (r : OpReg)
  /-- Raised by a host read of the operand `r` while `r` is unwritten since reset (R14, U26). Safe. -/
  | readUnwrittenOperand (r : OpReg)
  /-- Raised by a command that would succeed with a result longer than the result buffer (R163). Safe. -/
  | resultOverCapacity (r : ResReg)
  /-- Raised by a host write of more units than the operand buffer holds (R163). Safe. -/
  | writeOverCapacity (r : OpReg)
  /-- Raised by a host write of a value of another unit width, or of a number that does not fit (R59, R12). Safe. -/
  | valueDoesNotFit (r : OpReg)
  /-- Raised by a host write of a result register or of `ST` (R14). Safe. -/
  | writeReadOnly (p : ReadOnlyPort)
  /-- Raised by a host read of an invalid result register (R161). Safe. -/
  | readInvalidResult (r : ResReg)
  /-- Raised by a host read of `CMD`, which is not readable (R16). Safe. -/
  | readCmd
  /-- Raised by the second half of `CP` when no read has filled the host variable (R59). Safe. -/
  | noHostVariable
deriving DecidableEq, Repr

/-- The machine right after reset: `ST = 0x00`, every result invalid, every operand unwritten (R23, R155); the host has
nothing pending and has read nothing (log entry 3). -/
def State.reset : State where
  op := .unwritten
  res := .invalid
  st := 0x00
  script := []
  hostVar := none

end Sys2Proof.Machine
end

