-- ==== Sys2Proof/Machine/Flags.lean ====
section
/-! DEFINITION. The error taxonomy with its codes (60_exceptions.md R130, 30_encoding.md R56) and the status register
`ST` (10_state.md R17). -/

namespace Sys2Proof.Machine

/-- The eleven errors of the block: the source's ten in its listing order and `IllegalCommand` (R130). -/
inductive BlockError where
  | emptyPrefix
  | invalidPrefixCharacter
  | missingSeparator
  | mixedCase
  | invalidAlphabetCharacter
  | payloadTooShort
  | checksumMismatch
  | nonZeroPadding
  | hashLengthMismatch
  | unsupportedVersionType
  | illegalCommand
deriving DecidableEq, Repr

/-- The number `ST.ERR` reports an error by (R56). -/
def BlockError.code : BlockError → BitVec 4
  | .emptyPrefix              => 1
  | .invalidPrefixCharacter   => 2
  | .missingSeparator         => 3
  | .mixedCase                => 4
  | .invalidAlphabetCharacter => 5
  | .payloadTooShort          => 6
  | .checksumMismatch         => 7
  | .nonZeroPadding           => 8
  | .hashLengthMismatch       => 9
  | .unsupportedVersionType   => 10
  | .illegalCommand           => 11

/-- `ST` with `DONE` in bit 7, zeros in bits 6 to 4 and `ERR` in bits 3 to 0 (R17). -/
def statusWord (done : Bool) (err : BitVec 4) : BitVec 8 := BitVec.ofBool done ++ (0 : BitVec 3) ++ err

/-- `ST` after a command that ended without error: `DONE = 1`, `ERR = 0` (R136). -/
def successStatus : BitVec 8 := statusWord true 0

/-- `ST` after a command that raised `e`: `DONE = 1`, `ERR` the code of `e` (R134). -/
def errorStatus (e : BlockError) : BitVec 8 := statusWord true e.code

/-- `ST.DONE` (R17). -/
def statusDone (st : BitVec 8) : Bool := st.getLsbD 7

/-- `ST.ERR` (R17). -/
def statusErr (st : BitVec 8) : BitVec 4 := st.extractLsb' 0 4

end Sys2Proof.Machine
end

