-- ==== Sys2Proof/Machine/Operands.lean ====
section
/-! DEFINITION. How a command reaches its operands (10_state.md R14, 30_encoding.md R46, 70_reset_and_hazards.md R162):
every operand is a whole operand register; a legal command that reads one which nothing has written since reset is
refused. -/

namespace Sys2Proof.Machine

/-- What a step answers. -/
abbrev Answer := Host.Outcome State Fault Refusal

/-- Read the operand register `r` and go on with the value the host wrote to it. While nothing has written it since reset
the command 'is refused by the model; it does not run, does not write `ST`, and is not an `IllegalCommand`' (R162):
there is no transition, and what the storage holds is never used (93_implementation_defined.md U21, U22). -/
def need {α : Type} (r : OpReg) (operand : Held α) (k : α → Answer) : Answer :=
  match operand with
  | .written v   => k v
  | .unwritten _ => .refused (.unwrittenOperand r)

/-- The operand registers a command's rule reads: the column 'reads' of R46. -/
def readSet : Instr → List OpReg
  | .polymod => [.grps]
  | .cksum   => [.pfx, .grps]
  | .verify  => [.pfx, .grps]
  | .r8to5 _ => [.bytes]
  | .r5to8 _ => [.grps]
  | .mkver   => [.type, .hlen]
  | .verchk  => [.ver, .hlen]
  | .b32enc  => [.grps]
  | .b32dec  => [.bytes]
  | .encode  => [.pfx, .type, .bytes]
  | .decode  => [.bytes]

/-- Whether an operand register has been written since reset (R23). -/
def Operands.written (o : Operands) : OpReg → Bool
  | .pfx   => o.pfx.isWritten
  | .bytes => o.bytes.isWritten
  | .grps  => o.grps.isWritten
  | .type  => o.type.isWritten
  | .ver   => o.ver.isWritten
  | .hlen  => o.hlen.isWritten

/-- A register after the host has written `d` to it, if it is still unwritten (log entry 5). -/
def Held.supply {α : Type} (d : α) : Held α → Held α
  | .unwritten _ => .written d
  | .written v   => .written v

/-- The operands after the host has written the empty sequence or zero to `r`, if `r` is still unwritten (log entry 5). -/
def Operands.supply (o : Operands) : OpReg → Operands
  | .pfx   => { o with pfx := o.pfx.supply [] }
  | .bytes => { o with bytes := o.bytes.supply [] }
  | .grps  => { o with grps := o.grps.supply [] }
  | .type  => { o with type := o.type.supply 0 }
  | .ver   => { o with ver := o.ver.supply 0 }
  | .hlen  => { o with hlen := o.hlen.supply 0 }

/-- The operands after the host has supplied every register of a list (R160 step 1, log entry 5). -/
def Operands.supplyAll (o : Operands) (rs : List OpReg) : Operands := rs.foldl Operands.supply o

end Sys2Proof.Machine
end

