-- ==== Sys2Proof/Machine/Ops.lean ====
section
/-! DEFINITION. The operations every command shares: access to whole buffers (20_memory.md R32), the end of a command
with an error (60_exceptions.md R134) and without one (R136), and the capacity of the result buffers
(70_reset_and_hazards.md R163). -/

namespace Sys2Proof.Machine

/-- `MemRead(B + i, n)`: the `n` units from index `i`, defined only inside the buffer (R32). -/
def memRead {α : Type} (b : List α) (i n : Nat) : Option (List α) :=
  if i + n ≤ b.length then some ((b.drop i).take n) else none

/-- `MemWrite(B + i, n, x)`: the buffer with the `n` units of `x` at index `i`, defined only inside the buffer (R32). -/
def memWrite {α : Type} (b : List α) (i n : Nat) (x : List α) : Option (List α) :=
  if x.length = n ∧ i + n ≤ b.length then some (b.take i ++ x ++ b.drop (i + n)) else none

/-- `get(B)`, which is `MemRead(B + 0, B.len)`: the whole buffer (R32). -/
def getWhole {α : Type} (b : List α) : List α := (memRead b 0 b.length).getD []

/-- `put(B, x)`: set the buffer's length to that of `x`, then `MemWrite(B + 0, len(x), x)` (R32). The units between the
two steps are zeros here; all of them are overwritten. -/
def putWhole {w : Nat} (x : List (BitVec w)) : Option (List (BitVec w)) :=
  memWrite (List.replicate x.length 0) 0 x.length x

/-- A result buffer that holds more units than its capacity (R12, R163). -/
def exceeds {α : Type} (cap : Nat) (b : Option (List α)) : Bool :=
  match b with
  | some x => decide (cap < x.length)
  | none   => false

/-- The first result buffer whose capacity a set of results exceeds (R163). -/
def Results.overCapacity (r : Results) : Option ResReg :=
  if exceeds Config.pfxMax r.pfx then some .pfx
  else if exceeds Config.dataMax r.bytes then some .bytes
  else if exceeds Config.dataMax r.grps then some .grps
  else none

/-- The state with other operand registers: the effect of a host write (R14, R36). -/
def State.withOp (s : State) (o : Operands) : State := { s with op := o }

/-- The state with another host variable: the effect of a host read (R36, R58). -/
def State.withHostVar (s : State) (v : Value) : State := { s with hostVar := some v }

/-- The state with other pending host actions. -/
def State.withScript (s : State) (acts : List HostAction) : State := { s with script := acts }

/-- Error entry, `raise E`: `ST` reports the error, every result register becomes invalid, no operand changes and
control goes nowhere (R134). There is nothing to return from and no return operation (R135). -/
def raiseError (e : BlockError) (s : State) : State :=
  { s with res := .invalid, st := errorStatus e }

/-- The state after a command that ended without error with the results `r`: exactly these are valid, `ST` reports
success, operands are unchanged (R136). -/
def deliver (r : Results) (s : State) : State :=
  { s with res := r, st := successStatus }

/-- A command that ends without error (R136), unless a result buffer cannot hold its result (R163). -/
def complete (r : Results) (s : State) : Answer :=
  match r.overCapacity with
  | some reg => .refused (.resultOverCapacity reg)
  | none     => .next (deliver r s)

/-- The end of a command whose pseudocode gave results or an error: the only two ways a command ends (R136). -/
def finish (outcome : Except BlockError Results) (s : State) : Answer :=
  match outcome with
  | .ok r    => complete r s
  | .error e => .next (raiseError e s)

end Sys2Proof.Machine
end

