-- ==== Sys2Proof/Machine/Checksum.lean ====
section
/-! DEFINITION. The checksum engine (40_checksum.md): the pure functions R65 to R69 and the commands `POLYMOD`,
`CKSUM`, `VERIFY` (R71 to R73). The functions take the generator constants as an argument, since the laws of R70 hold
for every value of them. -/

namespace Sys2Proof.Machine

/-- `expand(p)`: the low five bits of each prefix byte (R65, 90_conflicts.md C2). -/
def expand (p : List Byte) : List Group := p.map fun b => (b &&& 0x1F#8).setWidth 5

/-- Exclusive-or `c` with each constant `G[i]` whose bit `i` of `c0` is set (R66 step 3). -/
def applyGenerators (G : Generators) (c0 : BitVec 5) (c : Acc) : Acc :=
  ([0, 1, 2, 3, 4] : List (Fin 5)).foldl (fun a i => if c0.getLsbD i.val then a ^^^ G i else a) c

/-- One step of the recurrence on the element `d` (R66). -/
def polymodStep (G : Generators) (c : Acc) (d : Group) : Acc :=
  applyGenerators G ((c >>> 35).setWidth 5) (((c &&& 0x07FFFFFFFF#40) <<< 5) ||| d.setWidth 40)

/-- `polymod(s)`: the raw accumulator after the last element, from the seed 1 (R66). -/
def polymod (G : Generators) (s : List Group) : Acc := s.foldl (polymodStep G) 1

/-- `ck_input(p, g)`: the expanded prefix, one zero, the groups (R67). -/
def ckInput (p : List Byte) (g : List Group) : List Group := expand p ++ [0] ++ g

/-- `explode(v)`: eight groups, most significant first (R68). -/
def explode (v : Acc) : List Group := (List.range 8).map fun k => (v >>> (5 * (7 - k))).setWidth 5

/-- `implode(e)`, the inverse of `explode` on sequences of eight groups (R68). -/
def implode (e : List Group) : Acc := e.foldl (fun v d => (v <<< 5) ||| d.setWidth 40) 0

/-- `compute_checksum(p, g)`: eight zero groups appended, exclusive-or with 1 on the compute side (R69). -/
def computeChecksum (G : Generators) (p : List Byte) (g : List Group) : Acc :=
  polymod G (ckInput p g ++ List.replicate 8 0) ^^^ 1

/-- `verify_checksum(p, g')`: nothing appended, the raw accumulator equals 1 (R69, 90_conflicts.md C5). -/
def verifyChecksum (G : Generators) (p : List Byte) (g : List Group) : Bool := polymod G (ckInput p g) == 1

/-- `POLYMOD` (R71). -/
def execPolymod (s : State) : Answer :=
  need .grps s.op.grps fun g =>
    finish (.ok { Results.invalid with ck := some (polymod Config.generator (getWhole g)) }) s

/-- `CKSUM` (R72). -/
def execCksum (s : State) : Answer :=
  need .pfx s.op.pfx fun p => need .grps s.op.grps fun g =>
    let ck := computeChecksum Config.generator (getWhole p) (getWhole g)
    finish (.ok { Results.invalid with ck := some ck, grps := putWhole (explode ck) }) s

/-- `VERIFY` (R73): the answer is a result, not an error. -/
def execVerify (s : State) : Answer :=
  need .pfx s.op.pfx fun p => need .grps s.op.grps fun g =>
    let r := polymod Config.generator (ckInput (getWhole p) (getWhole g))
    finish (.ok { Results.invalid with ck := some r, flag := some (r == 1) }) s

end Sys2Proof.Machine
end

