-- ==== Sys2Proof/Machine/Regroup.lean ====
section
/-! DEFINITION. The bit-grouping utility (41_regroup.md): the pure function `regroup` by its bit stream (R80, bit order
20_memory.md R33) and the commands `R8TO5`, `R5TO8` (R82, R83). -/

namespace Sys2Proof.Machine

/-- The bits of one element, most significant first: bit `b` is `x[w-1-b]` (R80, R33). -/
def msbFirst {w : Nat} (x : BitVec w) : List Bool := (List.range w).map fun b => x.getLsbD (w - 1 - b)

/-- The bit stream `S` of a sequence (R80). -/
def bitStream {w : Nat} (xs : List (BitVec w)) : List Bool := xs.flatMap msbFirst

/-- The number whose binary digits are `bs`, first digit most significant (R80). -/
def digitsToNat (bs : List Bool) : Nat := bs.foldl (fun n b => 2 * n + b.toNat) 0

/-- The group of `tw` bits whose binary digits are `bs` (R80). -/
def ofDigits (tw : Nat) (bs : List Bool) : BitVec tw := BitVec.ofNat tw (digitsToNat bs)

/-- The full output groups: group `k` has the digits `S[k*tw] .. S[k*tw + tw-1]` (R80). -/
def fullGroups (tw : Nat) (S : List Bool) : List (BitVec tw) :=
  (List.range (S.length / tw)).map fun k => ofDigits tw ((S.drop (k * tw)).take tw)

/-- The leftover bits `S[q*tw] .. S[N-1]` after all full groups (R80). -/
def leftover (tw : Nat) (S : List Bool) : List Bool := S.drop (S.length / tw * tw)

/-- `regroup(in, fw, tw, pad)` (R80): the full groups, and the leftover bits completed with zeros (`pad = true`) or
dropped if all are zero, else `NonZeroPadding` (`pad = false`). -/
def regroup {fw : Nat} (tw : Nat) (pad : Bool) (input : List (BitVec fw)) : Except BlockError (List (BitVec tw)) :=
  let S := bitStream input
  let full := fullGroups tw S
  let left := leftover tw S
  if left.length = 0 then .ok full
  else if pad then .ok (full ++ [ofDigits tw (left ++ List.replicate (tw - left.length) false)])
  else if left.any id then .error .nonZeroPadding
  else .ok full

/-- `R8TO5`, the 8-to-5-bit repackager (R82). -/
def execR8to5 (pad : Bool) (s : State) : Answer :=
  need .bytes s.op.bytes fun b =>
    finish ((regroup 5 pad (getWhole b)).map fun g => { Results.invalid with grps := putWhole g }) s

/-- `R5TO8`, the 5-to-8-bit repackager (R83). -/
def execR5to8 (pad : Bool) (s : State) : Answer :=
  need .grps s.op.grps fun g =>
    finish ((regroup 8 pad (getWhole g)).map fun b => { Results.invalid with bytes := putWhole b }) s

end Sys2Proof.Machine
end

