-- ==== Sys2Proof/Machine/VersionAlphabet.lean ====
section
/-! DEFINITION. The version/length validator and the alphabet mapping (42_version_alphabet.md): the tables of
30_encoding.md R51 and R53, the pure functions R90 to R92 and the commands `MKVER`, `VERCHK`, `B32ENC`, `B32DEC`
(R94 to R97). -/

namespace Sys2Proof.Machine

/-- The length table `LEN`, in bytes, indexed by size class (R51). -/
def lenTable : List Nat := [20, 24, 28, 32, 40, 48, 56, 64]

/-- `LEN[size_class]`; a 3-bit index always lies in the table (R51, R91). -/
def lenOf (sc : BitVec 3) : Nat := lenTable.getD sc.toNat 0

/-- `SC_OF(n)`, defined for exactly the eight lengths of the table (R51). -/
def scOf (n : Nat) : Option (BitVec 3) := (lenTable.idxOf? n).map (BitVec.ofNat 3)

/-- The type field `VER[7:3]` of a version byte (R50, 90_conflicts.md C1). -/
def verType (v : Byte) : BitVec 5 := (v >>> 3).setWidth 5

/-- The size-class field `VER[2:0]` of a version byte (R50, 90_conflicts.md C1). -/
def verSc (v : Byte) : BitVec 3 := (v &&& 7).setWidth 3

/-- `make_version(t, n)`: the length is checked first, then the type (R90). The length is the count itself, not its low
byte, since `encode_fn` passes `len(h)` (R100, R102). -/
def makeVersion (typeMax : Nat) (t : Byte) (n : Nat) : Except BlockError Byte :=
  match scOf n with
  | none    => .error .hashLengthMismatch
  | some sc =>
    if typeMax < t.toNat then .error .unsupportedVersionType
    else .ok ((t <<< 3) ||| sc.setWidth 8)

/-- The three fields a version byte splits into: type, size class, implied hash length (R91). -/
structure VersionFields where
  type : BitVec 5
  sc   : BitVec 3
  hlen : Nat
deriving DecidableEq, Repr

/-- `split_version(v)`: total, every byte splits (R91). -/
def splitVersion (v : Byte) : VersionFields := ⟨verType v, verSc v, lenOf (verSc v)⟩

/-- `check_version(v, n)`: the implied length must equal `n`; the type is not looked at (R91). -/
def checkVersion (v : Byte) (n : Nat) : Except BlockError VersionFields :=
  if n = (splitVersion v).hlen then .ok (splitVersion v) else .error .hashLengthMismatch

/-- The alphabet string `qpzry9x8gf2tvdw0s3jn54khce6mua7l`, by the codes of the table of R53. -/
def alphabet : List Byte :=
  [0x71, 0x70, 0x7A, 0x72, 0x79, 0x39, 0x78, 0x38, 0x67, 0x66, 0x32, 0x74, 0x76, 0x64, 0x77, 0x30] ++
  [0x73, 0x33, 0x6A, 0x6E, 0x35, 0x34, 0x6B, 0x68, 0x63, 0x65, 0x36, 0x6D, 0x75, 0x61, 0x37, 0x6C]

/-- `ALPHA[v]`: the character at position `v` (R53). -/
def alphaChar (v : Group) : Byte := alphabet.getD v.toNat 0

/-- `VAL(ch)`: the position of a character in the alphabet, undefined for every other byte (R53). -/
def alphaVal (ch : Byte) : Option Group := (alphabet.idxOf? ch).map (BitVec.ofNat 5)

/-- A lowercase ASCII letter, `0x61 .. 0x7A`. -/
def isLower (b : Byte) : Bool := decide (0x61 ≤ b.toNat ∧ b.toNat ≤ 0x7A)

/-- An uppercase ASCII letter, `0x41 .. 0x5A`. -/
def isUpper (b : Byte) : Bool := decide (0x41 ≤ b.toNat ∧ b.toNat ≤ 0x5A)

/-- The case fold of one payload byte: `0x20` added to `A-Z` only (R55). -/
def foldCase (b : Byte) : Byte := if isUpper b then b + 0x20 else b

/-- `b32_encode(g)`: always lowercase, total (R92). -/
def b32Encode (g : List Group) : List Byte := g.map alphaChar

/-- The groups of a folded text, or `InvalidAlphabetCharacter` when some byte has no value (R92). -/
def lookupAll (y : List Byte) : Except BlockError (List Group) :=
  match y.mapM alphaVal with
  | some g => .ok g
  | none   => .error .invalidAlphabetCharacter

/-- `b32_decode(x)`: the case check, the fold to lowercase, then the alphabet check (R92). -/
def b32Decode (x : List Byte) : Except BlockError (List Group) :=
  if x.any isLower && x.any isUpper then .error .mixedCase
  else lookupAll (x.map foldCase)

/-- The four results that describe a version byte (R94, R95). -/
def versionResults (v : Byte) : Results :=
  { Results.invalid with
    ver := some v, type := some (verType v), sc := some (verSc v),
    hlen := some (BitVec.ofNat 7 (lenOf (verSc v))) }

/-- `MKVER` (R94). -/
def execMkver (s : State) : Answer :=
  need .type s.op.type fun t => need .hlen s.op.hlen fun n =>
    finish ((makeVersion Config.typeMax t n.toNat).map versionResults) s

/-- `VERCHK` (R95). -/
def execVerchk (s : State) : Answer :=
  need .ver s.op.ver fun v => need .hlen s.op.hlen fun n =>
    finish ((checkVersion v n.toNat).map fun f =>
      { Results.invalid with
        ver := some v, type := some f.type, sc := some f.sc, hlen := some (BitVec.ofNat 7 f.hlen) }) s

/-- `B32ENC` (R96). -/
def execB32enc (s : State) : Answer :=
  need .grps s.op.grps fun g =>
    finish (.ok { Results.invalid with bytes := putWhole (b32Encode (getWhole g)) }) s

/-- `B32DEC` (R97). -/
def execB32dec (s : State) : Answer :=
  need .bytes s.op.bytes fun x =>
    finish ((b32Decode (getWhole x)).map fun g => { Results.invalid with grps := putWhole g }) s

end Sys2Proof.Machine
end

