-- ==== Sys2Proof/Machine/Encoder.lean ====
section
/-! DEFINITION. The encoder (43_encode.md): `encode_fn` (R100) with its validation order (R102) and the command
`ENCODE` (R101). -/

namespace Sys2Proof.Machine

/-- The separator `:` (R54). -/
def separator : Byte := 0x3A

/-- The prefix check that encoder and decoder share: not empty, lowercase ASCII letters only, as written (R102, R113). -/
def checkPfx (p : List Byte) : Except BlockError Unit :=
  if p.length = 0 then .error .emptyPrefix
  else if p.any (fun b => !isLower b) then .error .invalidPrefixCharacter
  else .ok ()

/-- The address text of validated operands: prefix, separator, data and checksum characters (R100). -/
def assemble (G : Generators) (p : List Byte) (g : List Group) : List Byte :=
  p ++ [separator] ++ b32Encode (g ++ explode (computeChecksum G p g))

/-- `encode_fn(p, t, h)` (R100): prefix, length and type are checked in this order before any other work (R102). -/
def encodeFn (G : Generators) (typeMax : Nat) (p : List Byte) (t : Byte) (h : List Byte) :
    Except BlockError (List Byte) := do
  checkPfx p
  let ver ← makeVersion typeMax t h.length
  let g ← regroup 5 true (ver :: h)
  return assemble G p g

/-- `ENCODE` (R101): the hash length is the length of `OP.BYTES`; only `RES.BYTES` becomes valid. -/
def execEncode (s : State) : Answer :=
  need .pfx s.op.pfx fun p => need .type s.op.type fun t => need .bytes s.op.bytes fun h =>
    finish ((encodeFn Config.generator Config.typeMax (getWhole p) t (getWhole h)).map fun text =>
      { Results.invalid with bytes := putWhole text }) s

end Sys2Proof.Machine
end

