-- ==== Sys2Proof/Machine/Decoder.lean ====
section
/-! DEFINITION. The decoder (44_decode.md): `decode_fn` with its seven gates (R110, R112 to R119) and the command
`DECODE` (R111). -/

namespace Sys2Proof.Machine

/-- The fields the decoder delivers (R110). -/
structure Decoded where
  pfx  : List Byte
  ver  : Byte
  type : BitVec 5
  sc   : BitVec 3
  hlen : Nat
  hash : List Byte
deriving DecidableEq, Repr

/-- Gate 1, split: the byte `:` occurs exactly once; prefix before it, payload text after it (R112). -/
def splitAddress (a : List Byte) : Except BlockError (List Byte × List Byte) :=
  if a.count separator ≠ 1 then .error .missingSeparator
  else .ok (a.take (a.idxOf separator), a.drop (a.idxOf separator + 1))

/-- Gates 4 and 5 on the payload groups: length, then checksum over all of them (R116, R117). -/
def checkPayload (G : Generators) (p : List Byte) (g : List Group) : Except BlockError Unit :=
  if g.length < 9 then .error .payloadTooShort
  else if !verifyChecksum G p g then .error .checksumMismatch
  else .ok ()

/-- Gate 7, field extraction: a version byte, and a hash of exactly the length it implies (R119). -/
def extractFields (p b : List Byte) : Except BlockError Decoded :=
  match b with
  | []     => .error .hashLengthMismatch
  | v :: h => (checkVersion v h.length).map fun f => ⟨p, v, f.type, f.sc, f.hlen, h⟩

/-- `decode_fn(a)` (R110): the first gate that fails ends it with that gate's error. -/
def decodeFn (G : Generators) (a : List Byte) : Except BlockError Decoded := do
  let (p, x) ← splitAddress a
  checkPfx p
  let g ← b32Decode x
  checkPayload G p g
  let b ← regroup 8 false (g.take (g.length - 8))
  extractFields p b

/-- The results `DECODE` delivers (R111). -/
def decodedResults (d : Decoded) : Results :=
  { Results.invalid with
    pfx := putWhole d.pfx, ver := some d.ver, type := some d.type, sc := some d.sc,
    hlen := some (BitVec.ofNat 7 d.hlen), bytes := putWhole d.hash }

/-- `DECODE` (R111). -/
def execDecode (s : State) : Answer :=
  need .bytes s.op.bytes fun a => finish ((decodeFn Config.generator (getWhole a)).map decodedResults) s

end Sys2Proof.Machine
end

