-- ==== Sys2Proof/Machine/Dispatch.lean ====
section
/-! DEFINITION. The command step: one arm per command of 30_encoding.md R46. -/

namespace Sys2Proof.Machine

def exec (i : Instr) (s : State) : Host.Outcome State Fault Refusal :=
  match i with
  | .polymod => Sys2Proof.Machine.execPolymod s
  | .cksum => Sys2Proof.Machine.execCksum s
  | .verify => Sys2Proof.Machine.execVerify s
  | .r8to5 pad => Sys2Proof.Machine.execR8to5 pad s
  | .r5to8 pad => Sys2Proof.Machine.execR5to8 pad s
  | .mkver => Sys2Proof.Machine.execMkver s
  | .verchk => Sys2Proof.Machine.execVerchk s
  | .b32enc => Sys2Proof.Machine.execB32enc s
  | .b32dec => Sys2Proof.Machine.execB32dec s
  | .encode => Sys2Proof.Machine.execEncode s
  | .decode => Sys2Proof.Machine.execDecode s

end Sys2Proof.Machine
end

