-- ==== Sys2Proof/Machine/HostAccess.lean ====
section
/-! DEFINITION. What each host action does (10_state.md R14, R16; 20_memory.md R36, R39; 30_encoding.md R47, R58, R59)
and when it is declined (70_reset_and_hazards.md R161, R163; 93_implementation_defined.md U20, U25 to U27). -/

namespace Sys2Proof.Machine

/-- A write of the byte `b` to `CMD`: the command it names runs; an illegal word raises `IllegalCommand` before
anything else and reads no operand (R16, R47, R133). -/
def runCommand (b : Byte) (s : State) : Answer :=
  match Sys2Proof.decode b with
  | .ok i    => exec i s
  | .error _ => .next (raiseError .illegalCommand s)

/-- Store a whole sequence in an operand buffer of capacity `cap`, or decline it (R12, R163). -/
def storeWithin {α : Type} (cap : Nat) (r : OpReg) (v : List α) (next : State) : Answer :=
  if v.length ≤ cap then .next next else .refused (.writeOverCapacity r)

/-- Store a number in an 8-bit scalar operand, or decline one that does not fit (R11, R59). -/
def storeScalar (r : OpReg) (n : Nat) (next : Byte → State) : Answer :=
  if n < 256 then .next (next (BitVec.ofNat 8 n)) else .refused (.valueDoesNotFit r)

/-- `WR <operand register>, <value>`: the register holds the value; nothing else changes (R12, R14, R36). -/
def hostWrite (r : OpReg) (v : Value) (s : State) : Answer :=
  match r, v with
  | .pfx,   .bytes x  => storeWithin Config.pfxMax .pfx x (s.withOp { s.op with pfx := .written x })
  | .bytes, .bytes x  => storeWithin Config.dataMax .bytes x (s.withOp { s.op with bytes := .written x })
  | .grps,  .groups x => storeWithin Config.dataMax .grps x (s.withOp { s.op with grps := .written x })
  | .type,  .scalar n => storeScalar .type n fun b => s.withOp { s.op with type := .written b }
  | .ver,   .scalar n => storeScalar .ver n fun b => s.withOp { s.op with ver := .written b }
  | .hlen,  .scalar n => storeScalar .hlen n fun b => s.withOp { s.op with hlen := .written b }
  | r,      _         => .refused (.valueDoesNotFit r)

/-- The value an operand register holds: what the host last wrote to it (R14), or what its storage holds while nothing
has written it since reset (log entry 2). -/
def Operands.value (o : Operands) : OpReg → Value
  | .pfx   => .bytes o.pfx.value
  | .bytes => .bytes o.bytes.value
  | .grps  => .groups o.grps.value
  | .type  => .scalar o.type.value.toNat
  | .ver   => .scalar o.ver.value.toNat
  | .hlen  => .scalar o.hlen.value.toNat

/-- The value a result register holds, if it is valid (R15). -/
def Results.value (r : Results) : ResReg → Option Value
  | .pfx   => r.pfx.map .bytes
  | .bytes => r.bytes.map .bytes
  | .grps  => r.grps.map .groups
  | .ver   => r.ver.map fun x => .scalar x.toNat
  | .type  => r.type.map fun x => .scalar x.toNat
  | .sc    => r.sc.map fun x => .scalar x.toNat
  | .hlen  => r.hlen.map fun x => .scalar x.toNat
  | .ck    => r.ck.map fun x => .scalar x.toNat
  | .flag  => r.flag.map fun x => .scalar x.toNat

/-- What a host read of a port returns, or why it is declined: an operand 'returns the value the host last wrote to it, or
is refused when the register is unwritten since reset' (R14, U26), an invalid result is refused (R15, R161, U20), `CMD` is
not readable (R16, U25), `ST` is always defined (R17). -/
def portValue (s : State) : Port → Except Refusal Value
  | .op r  => if s.op.written r then .ok (s.op.value r) else .error (.readUnwrittenOperand r)
  | .res r => match s.res.value r with
    | some v => .ok v
    | none   => .error (.readInvalidResult r)
  | .st     => .ok (.scalar s.st.toNat)
  | .stDone => .ok (.scalar (statusDone s.st).toNat)
  | .stErr  => .ok (.scalar (statusErr s.st).toNat)
  | .cmd    => .error .readCmd

/-- `RD <register> -> t`: the host variable takes the value; a read has no side effect on the block (R36, R58). -/
def hostRead (p : Port) (s : State) : Answer :=
  match portValue s p with
  | .ok v    => .next (s.withHostVar v)
  | .error r => .refused r

/-- `WR <operand register>, t` for the host variable of the last read: the second half of `CP` (R59). -/
def hostWriteVar (r : OpReg) (s : State) : Answer :=
  match s.hostVar with
  | some v => hostWrite r v s
  | none   => .refused .noHostVariable

/-- The reset event: `ST`, the results and the operands take their reset state; the host's side is not the block's and
stays (R155, R23). -/
def resetBlock (s : State) : State := { s with op := .unwritten, res := .invalid, st := 0x00 }

/-- What one host action does to the block (R14, R36, R39). -/
def perform (a : HostAction) (s : State) : Answer :=
  match a with
  | .write r v       => hostWrite r v s
  | .writeVar r      => hostWriteVar r s
  | .writeReadOnly p => .refused (.writeReadOnly p)
  | .command b       => runCommand b s
  | .read p          => hostRead p s
  | .reset           => .next (resetBlock s)

/-- `CMD <mnemonic>`: write the command's byte to `CMD` (R58). -/
def scriptCmd (i : Instr) : HostAction := .command (Sys2Proof.encode i)

/-- `CMD R8TO5` without a suffix is `CMD R8TO5.P` (R59). -/
def scriptR8to5 : HostAction := scriptCmd (.r8to5 true)

/-- `CMD R5TO8` without a suffix is `CMD R5TO8.N` (R59). -/
def scriptR5to8 : HostAction := scriptCmd (.r5to8 false)

/-- `CP <operand register>, <result register>`: read the result, then write the operand (R59). -/
def scriptCp (dst : OpReg) (src : ResReg) : List HostAction := [.read (.res src), .writeVar dst]

/-- The state in which the host has just supplied the operands of the byte `b`'s command that were still unwritten and
now writes `b` to `CMD`: steps 1 and 2 of R160 (log entry 5). -/
def offerCommand (b : Byte) (s : State) : State :=
  match Sys2Proof.decode b with
  | .ok i    => (s.withOp (s.op.supplyAll (readSet i))).withScript (.command b :: s.script)
  | .error _ => s.withScript (.command b :: s.script)

end Sys2Proof.Machine
end

