-- ==== Sys2Proof/Machine/Step.lean ====
section
/-! DEFINITION. One step of the machine: the host's next action takes its effect, a command being one indivisible
action (20_memory.md R38, R39). With no action pending nothing happens (log entry 3). -/

namespace Sys2Proof.Machine

/-- Take the oldest pending host action and perform it; without one the machine stays as it is (R38, R39). -/
def step (s : State) : Host.Outcome State Fault Refusal :=
  match s.script with
  | []        => .next s
  | a :: rest => perform a (s.withScript rest)

/-- `s` with the command word of `nbits` bits `w` as the host's next action, and with the operands its command reads
supplied where they are still unwritten, so that the next step runs exactly it (log entry 5). -/
def State.withFetchWord (s : State) (nbits w : Nat) : State := offerCommand (BitVec.ofNat 8 (w % 2 ^ nbits)) s

end Sys2Proof.Machine
end

