-- ==== Sys2Proof/Safety.lean ====
section
/-! DEFINITION. What counts as a safe state, the tables of 30_encoding.md R46 and the laws of 40_checksum.md R70 that
claims speak of, and second definitions of the pure functions, on plain numbers, that claims compare the model's with. -/

namespace Sys2Proof.Machine

/-- Whether a result register is valid (R15). -/
def Results.isValid (r : Results) : ResReg → Bool
  | .pfx   => r.pfx.isSome
  | .bytes => r.bytes.isSome
  | .grps  => r.grps.isSome
  | .ver   => r.ver.isSome
  | .type  => r.type.isSome
  | .sc    => r.sc.isSome
  | .hlen  => r.hlen.isSome
  | .ck    => r.ck.isSome
  | .flag  => r.flag.isSome

/-- The result registers a command makes valid when it ends without error: the column 'writes' of R46. -/
def writeSet : Instr → List ResReg
  | .polymod => [.ck]
  | .cksum   => [.ck, .grps]
  | .verify  => [.flag, .ck]
  | .r8to5 _ => [.grps]
  | .r5to8 _ => [.bytes]
  | .mkver   => [.ver, .type, .sc, .hlen]
  | .verchk  => [.ver, .type, .sc, .hlen]
  | .b32enc  => [.bytes]
  | .b32dec  => [.grps]
  | .encode  => [.bytes]
  | .decode  => [.pfx, .ver, .type, .sc, .hlen, .bytes]

/-- The errors a command can raise: the column 'errors' of R46. -/
def errorSet : Instr → List BlockError
  | .polymod => []
  | .cksum   => []
  | .verify  => []
  | .r8to5 pad => if pad then [] else [.nonZeroPadding]
  | .r5to8 pad => if pad then [] else [.nonZeroPadding]
  | .mkver   => [.hashLengthMismatch, .unsupportedVersionType]
  | .verchk  => [.hashLengthMismatch]
  | .b32enc  => []
  | .b32dec  => [.mixedCase, .invalidAlphabetCharacter]
  | .encode  => [.emptyPrefix, .invalidPrefixCharacter, .hashLengthMismatch, .unsupportedVersionType]
  | .decode  =>
    [.missingSeparator, .emptyPrefix, .invalidPrefixCharacter, .mixedCase, .invalidAlphabetCharacter,
     .payloadTooShort, .checksumMismatch, .nonZeroPadding, .hashLengthMismatch]

/-- A prefix the encoder and the decoder accept: lowercase ASCII letters only, at least one (R54 item 2). -/
def ValidPfx (p : List Byte) : Prop := p ≠ [] ∧ ∀ b ∈ p, 0x61 ≤ b.toNat ∧ b.toNat ≤ 0x7A

/-- A text with a lowercase and an uppercase letter (R55). -/
def MixedText (x : List Byte) : Prop :=
  (∃ a ∈ x, 0x61 ≤ a.toNat ∧ a.toNat ≤ 0x7A) ∧ ∃ b ∈ x, 0x41 ≤ b.toNat ∧ b.toNat ≤ 0x5A

/-- A payload text of one case that spells the groups `g`, one character a group (R54 item 3, R115). -/
def Spells (x : List Byte) (g : List Group) : Prop := ¬ MixedText x ∧ x.map foldCase = g.map alphaChar

/-- The groups of a payload text that verify under the prefix `p` (R117). -/
def Verifies (p : List Byte) (g : List Group) : Prop := polymod Config.generator (expand p ++ [0] ++ g) = 1

/-- The safe states: what the rules say of operands, results and status at every moment (R7, R12, R13, R15, R17). -/
structure State.Inv (s : State) : Prop where
  /-- The operand buffers hold at most their capacity (R12). -/
  opPfxFits   : s.op.pfx.value.length ≤ Config.pfxMax
  opBytesFits : s.op.bytes.value.length ≤ Config.dataMax
  opGrpsFits  : s.op.grps.value.length ≤ Config.dataMax
  /-- The result buffers hold at most their capacity (R12). -/
  resPfxFits   : ∀ p, s.res.pfx = some p → p.length ≤ Config.pfxMax
  resBytesFits : ∀ b, s.res.bytes = some b → b.length ≤ Config.dataMax
  resGrpsFits  : ∀ g, s.res.grps = some g → g.length ≤ Config.dataMax
  /-- `ST` is 0 until the first command ends; then `DONE` is set and `ERR` is a code of R56 (R17). -/
  statusForm : s.st = 0x00 ∨ s.st = 0x80 ∨ ∃ e : BlockError, s.st = 0x80#8 ||| e.code.setWidth 8
  /-- Without a command that ended without error no result is valid (R15, R23). -/
  nothingValid : s.st ≠ 0x80 → s.res = Results.invalid
  /-- After a success exactly the 'writes' of some command are valid (R15, R46). -/
  exactlyOneWriteSet : s.st = 0x80 → ∃ i : Instr, ∀ x : ResReg, s.res.isValid x = decide (x ∈ writeSet i)
  /-- `RES.TYPE`, `RES.SC`, `RES.HLEN` are the fields of `RES.VER` and the length they imply (R13). -/
  versionFields : ∀ v, s.res.ver = some v →
    s.res.type = some (v.extractLsb' 3 5) ∧ s.res.sc = some (v.extractLsb' 0 3) ∧
    s.res.hlen = some (BitVec.ofNat 7 (lenOf (v.extractLsb' 0 3)))
  /-- `RES.FLAG` is 1 exactly when `RES.CK` is 1 (R73). -/
  flagIsCheck : ∀ b, s.res.flag = some b → ∃ c, s.res.ck = some c ∧ (b = true ↔ c = 1)
  /-- A checksum delivered with groups is delivered as its own eight groups (R72). -/
  checksumGroups : ∀ c g, s.res.ck = some c → s.res.grps = some g → g = explode c
  /-- A decoded prefix is a valid one, and the hash beside it has the implied length (R111). -/
  decodedFields : ∀ p, s.res.pfx = some p → ValidPfx p ∧
    ∃ h n, s.res.bytes = some h ∧ s.res.hlen = some n ∧ h.length = n.toNat

/-- The number whose digits, first most significant, are the units of a sequence: its bit stream read as one number
(R33). -/
def natOf {w : Nat} (xs : List (BitVec w)) : Nat := xs.foldl (fun n x => n * 2 ^ w + x.toNat) 0

/-- The recurrence of R66 on plain numbers, one step. -/
def natPolymodStep (G : Fin 5 → Nat) (c d : Nat) : Nat :=
  let c0 := c / 2 ^ 35
  let shifted := c % 2 ^ 35 * 2 ^ 5 + d
  let g (i : Fin 5) : Nat := if c0.testBit i.val then G i else 0
  shifted ^^^ (g 0 ^^^ g 1 ^^^ g 2 ^^^ g 3 ^^^ g 4)

/-- The recurrence of R66 on plain numbers, from the seed 1. -/
def natPolymod (G : Fin 5 → Nat) (s : List Nat) : Nat := s.foldl (natPolymodStep G) 1

/-- The inner loop of R80 on plain numbers: emit groups of `tw` bits while there are enough; `fuel` bounds the turns. -/
def loopEmit (tw : Nat) : Nat → Nat × Nat × List Nat → Nat × Nat × List Nat
  | 0, st => st
  | fuel + 1, (acc, nbits, out) =>
    if tw ≤ nbits then
      loopEmit tw fuel (acc % 2 ^ (nbits - tw), nbits - tw, out ++ [acc / 2 ^ (nbits - tw) % 2 ^ tw])
    else (acc, nbits, out)

/-- The loop of R80 on plain numbers, an accumulator and a bit count threaded through the elements. -/
def loopRegroup (fw tw : Nat) (pad : Bool) (input : List Nat) : Except BlockError (List Nat) :=
  match input.foldl (fun (st : Nat × Nat × List Nat) x =>
      loopEmit tw fw (st.1 * 2 ^ fw + x, st.2.1 + fw, st.2.2)) (0, 0, []) with
  | (acc, nbits, out) =>
    if 0 < nbits then
      if pad then .ok (out ++ [acc * 2 ^ (tw - nbits) % 2 ^ tw])
      else if acc ≠ 0 then .error .nonZeroPadding
      else .ok out
    else .ok out

/-- The low five bits of the constants that `c0` selects are not all cancelled, for any `c0` but 0. This condition is the
model's own, no rule's; by the recurrence of R66 it means that no step loses a nonzero difference of accumulators. -/
def LowFiveIndependent (G : Generators) : Prop :=
  ∀ c0 : BitVec 5, c0 ≠ 0 → (applyGenerators G c0 0).setWidth 5 ≠ (0 : BitVec 5)

/-- R70 law 1 for the constants `G`: the tail of eight enters linearly. -/
def TailIsLinear (G : Generators) : Prop :=
  ∀ x e : List Group, e.length = 8 → polymod G (x ++ e) = polymod G (x ++ List.replicate 8 0) ^^^ implode e

/-- R70 law 2 for the constants `G`: a computed checksum verifies. -/
def ComputedVerifies (G : Generators) : Prop :=
  ∀ (p : List Byte) (g : List Group), verifyChecksum G p (g ++ explode (computeChecksum G p g)) = true

/-- R70 law 3 for the constants `G`: one tail of eight groups verifies, any other gives the stated accumulator, not 1. -/
def TailIsUnique (G : Generators) : Prop :=
  ∀ (p : List Byte) (g e : List Group), e.length = 8 →
    (verifyChecksum G p (g ++ e) = true ↔ e = explode (computeChecksum G p g)) ∧
    polymod G (ckInput p (g ++ e)) = 1 ^^^ implode e ^^^ implode (explode (computeChecksum G p g))

/-- R70 law 4, the named assumption on the constants: replacing one group of a verifying sequence by a different value
makes it fail. The model assumes it of no constants; a claim that relies on it takes it as a hypothesis. -/
def SingleErrorDetecting (G : Generators) : Prop :=
  ∀ (p : List Byte) (x y : List Group) (d d' : Group), d ≠ d' → verifyChecksum G p (x ++ d :: y) = true →
    verifyChecksum G p (x ++ d' :: y) = false

end Sys2Proof.Machine
end

