-- ==== Sys2Proof/Certificates/Slice0/Obligations.lean ====
section
/-! DEFINITION. The statements for the provers. Each docstring names the rules of spec/ it formalises. -/

open Sys2Proof Sys2Proof.Machine

/-! ### Reset, stepping, decoding -/

/-- R155: the block right after reset and after the reset event in any state, that no command performs a reset, and that
a zero written to `CMD` is an illegal command. That the storage of an unwritten operand holds something at all is log
entry 2 (DESIGN CHOICE); UnwrittenValueIsNeverSeen says that nothing shows what. -/
def Obligations.ResetLeavesNothingWrittenOrValid : Prop :=
  (State.reset.st = 0x00 ∧ State.reset.op = Operands.unwritten ∧ State.reset.res = Results.invalid) ∧
  (∀ s : State, ∃ t : State, perform .reset s = .next t ∧
    t.st = 0x00 ∧ t.op = Operands.unwritten ∧ t.res = Results.invalid) ∧
  (∀ (r : OpReg), Operands.unwritten.written r = false) ∧ (∀ x : ResReg, Results.invalid.isValid x = false) ∧
  (∀ (i : Instr) (s t : State), exec i s = .next t → t.st ≠ 0x00 ∧ t.op = s.op) ∧
  ∀ s : State, runCommand 0x00 s = .next { s with st := 0x8B, res := Results.invalid }

/-- R38, R39 and R16 with the model's own pending host actions (log entry 3): a step performs the oldest action, a
legal byte written to `CMD` runs its command at once, and without an action nothing happens. -/
def Obligations.StepRunsTheDecodedCommand : Prop :=
  (∀ (s : State) (b : Byte) (rest : List HostAction) (i : Instr),
    s.script = .command b :: rest → Sys2Proof.decode b = .ok i → step s = exec i { s with script := rest }) ∧
  (∀ (s : State) (a : HostAction) (rest : List HostAction),
    s.script = a :: rest → step s = perform a { s with script := rest }) ∧
  ∀ s : State, s.script = [] → step s = .next s

/-- R45, R46: the thirteen legal bytes, each decoding to its command and each command encoding to its byte. -/
def Obligations.LegalBytesDecodeToTheirCommand : Prop :=
  Sys2Proof.decode 0x01 = .ok .polymod ∧ Sys2Proof.decode 0x02 = .ok .cksum ∧ Sys2Proof.decode 0x03 = .ok .verify ∧
  Sys2Proof.decode 0x04 = .ok (.r8to5 false) ∧ Sys2Proof.decode 0x14 = .ok (.r8to5 true) ∧
  Sys2Proof.decode 0x05 = .ok (.r5to8 false) ∧ Sys2Proof.decode 0x15 = .ok (.r5to8 true) ∧
  Sys2Proof.decode 0x06 = .ok .mkver ∧ Sys2Proof.decode 0x07 = .ok .verchk ∧ Sys2Proof.decode 0x08 = .ok .b32enc ∧
  Sys2Proof.decode 0x09 = .ok .b32dec ∧ Sys2Proof.decode 0x0A = .ok .encode ∧ Sys2Proof.decode 0x0B = .ok .decode

/-- R45, R46: decode and encode agree in both directions, so no bit of a command word is dropped and each legal byte
has one meaning. -/
def Obligations.DecodeAndEncodeAgree : Prop :=
  (∀ i : Instr, Sys2Proof.decode (Sys2Proof.encode i) = .ok i) ∧
  ∀ (b : Byte) (i : Instr), Sys2Proof.decode b = .ok i → Sys2Proof.encode i = b

/-- R47: which words are illegal, how many, and that each one raises `IllegalCommand` in every state, reading no
operand. -/
def Obligations.IllegalWordRaisesIllegalCommand : Prop :=
  (∀ b : Byte, (∃ e, Sys2Proof.decode b = .error e) ↔
    b.extractLsb' 5 3 ≠ 0 ∨ b.extractLsb' 0 4 ∈ ([0x0, 0xC, 0xD, 0xE, 0xF] : List (BitVec 4)) ∨
      (b.getLsbD 4 = true ∧ b.extractLsb' 0 4 ≠ 4 ∧ b.extractLsb' 0 4 ≠ 5)) ∧
  (((List.range 256).filter fun n => (Sys2Proof.decode (BitVec.ofNat 8 n)).toOption.isNone).length = 243) ∧
  (∀ (b : Byte) (e : DecodeError) (s : State), Sys2Proof.decode b = .error e →
    runCommand b s = .next { s with st := 0x8B, res := Results.invalid }) ∧
  ∃ e, Sys2Proof.decode 0x00 = .error e

/-! ### Host access -/

/-- R12, R14, R36, R163: a host write stores the whole value in the named register and changes nothing else; a buffer
takes at most its capacity. A scalar takes a number of eight bits (R11). -/
def Obligations.HostWriteStoresTheWholeValue : Prop :=
  ∀ s : State,
    (∀ x : List Byte, perform (.write .pfx (.bytes x)) s =
      if x.length ≤ Config.pfxMax then .next { s with op := { s.op with pfx := .written x } }
      else .refused (.writeOverCapacity .pfx)) ∧
    (∀ x : List Byte, perform (.write .bytes (.bytes x)) s =
      if x.length ≤ Config.dataMax then .next { s with op := { s.op with bytes := .written x } }
      else .refused (.writeOverCapacity .bytes)) ∧
    (∀ x : List Group, perform (.write .grps (.groups x)) s =
      if x.length ≤ Config.dataMax then .next { s with op := { s.op with grps := .written x } }
      else .refused (.writeOverCapacity .grps)) ∧
    (∀ x : Byte, perform (.write .type (.scalar x.toNat)) s = .next { s with op := { s.op with type := .written x } }) ∧
    (∀ x : Byte, perform (.write .ver (.scalar x.toNat)) s = .next { s with op := { s.op with ver := .written x } }) ∧
    (∀ x : Byte, perform (.write .hlen (.scalar x.toNat)) s = .next { s with op := { s.op with hlen := .written x } })

/-- R36, R161, R16, R17, with R14's access table: a read returns the register's value, said register by register, and
changes nothing of the block; a read of an invalid result, of an operand unwritten since reset and of `CMD` is refused. The
host variable that takes the value is the model's own field (log entry 3). -/
def Obligations.HostReadIsPureAndDeclinesWhatHoldsNoValue : Prop :=
  ∀ s : State,
    (∀ (p : Port) (t : State), perform (.read p) s = .next t → t = { s with hostVar := t.hostVar }) ∧
    perform (.read .st) s = .next { s with hostVar := some (.scalar s.st.toNat) } ∧
    perform (.read .stDone) s = .next { s with hostVar := some (.scalar (s.st.toNat / 128)) } ∧
    perform (.read .stErr) s = .next { s with hostVar := some (.scalar (s.st.toNat % 16)) } ∧
    perform (.read .cmd) s = .refused .readCmd ∧
    (∀ x : ResReg, s.res.isValid x = false → perform (.read (.res x)) s = .refused (.readInvalidResult x)) ∧
    (∀ x : ResReg, s.res.isValid x = true → ∃ v, s.res.value x = some v ∧
      perform (.read (.res x)) s = .next { s with hostVar := some v }) ∧
    (∀ r : OpReg, s.op.written r = true → perform (.read (.op r)) s = .next { s with hostVar := some (s.op.value r) }) ∧
    (∀ r : OpReg, s.op.written r = false → perform (.read (.op r)) s = .refused (.readUnwrittenOperand r)) ∧
    (∀ x, s.res.pfx = some x → perform (.read (.res .pfx)) s = .next { s with hostVar := some (.bytes x) }) ∧
    (∀ x, s.res.bytes = some x → perform (.read (.res .bytes)) s = .next { s with hostVar := some (.bytes x) }) ∧
    (∀ x, s.res.grps = some x → perform (.read (.res .grps)) s = .next { s with hostVar := some (.groups x) }) ∧
    (∀ x, s.res.ver = some x → perform (.read (.res .ver)) s = .next { s with hostVar := some (.scalar x.toNat) }) ∧
    (∀ x, s.res.type = some x → perform (.read (.res .type)) s = .next { s with hostVar := some (.scalar x.toNat) }) ∧
    (∀ x, s.res.sc = some x → perform (.read (.res .sc)) s = .next { s with hostVar := some (.scalar x.toNat) }) ∧
    (∀ x, s.res.hlen = some x → perform (.read (.res .hlen)) s = .next { s with hostVar := some (.scalar x.toNat) }) ∧
    (∀ x, s.res.ck = some x → perform (.read (.res .ck)) s = .next { s with hostVar := some (.scalar x.toNat) }) ∧
    (∀ x, s.res.flag = some x →
      perform (.read (.res .flag)) s = .next { s with hostVar := some (.scalar (if x then 1 else 0)) }) ∧
    s.op.value .pfx = .bytes s.op.pfx.value ∧ s.op.value .bytes = .bytes s.op.bytes.value ∧
    s.op.value .grps = .groups s.op.grps.value ∧ s.op.value .type = .scalar s.op.type.value.toNat ∧
    s.op.value .ver = .scalar s.op.ver.value.toNat ∧ s.op.value .hlen = .scalar s.op.hlen.value.toNat

/-- R14: no command writes an operand register or reads a result register, a host write of a result register or of `ST`
is refused, a host read of an operand returns the value last written to it or is refused when it is unwritten since reset,
and no register aliases another. -/
def Obligations.DirectionOfRegisterAccess : Prop :=
  (∀ (i : Instr) (s t : State), exec i s = .next t → t.op = s.op) ∧
  (∀ (i : Instr) (s : State) (r : Results) (t : State), exec i s = .next t → exec i { s with res := r } = .next t) ∧
  (∀ (p : ReadOnlyPort) (s : State), perform (.writeReadOnly p) s = .refused (.writeReadOnly p)) ∧
  (∀ (r : OpReg) (v : Value) (s t : State), perform (.write r v) s = .next t →
    perform (.read (.op r)) t = .next { t with hostVar := some v } ∧ t.res = s.res ∧ t.st = s.st ∧
      t.op.written r = true ∧ ∀ r' : OpReg, r' ≠ r → t.op.value r' = s.op.value r' ∧ t.op.written r' = s.op.written r') ∧
  ∀ (r : OpReg) (s : State), s.op.written r = false → perform (.read (.op r)) s = .refused (.readUnwrittenOperand r)

/-- R59, `CP`: a read and a write of the value read move any valid result (as
HostReadIsPureAndDeclinesWhatHoldsNoValue fixes it) to any operand of the same unit width that has room for it, or to
any scalar operand that the number fits. The model's own choices here: the pair is two steps of pending host actions
and a host variable (log entry 3, DESIGN CHOICE); a value of another unit width, or a number of 256 or more, is
declined by name (log entry 9, DESIGN CHOICE). -/
def Obligations.CopyPairMovesAResultToAnOperand : Prop :=
  ∀ (s : State) (src : ResReg) (rest : List HostAction),
    (∀ x : List Byte, s.res.value src = some (.bytes x) →
      (x.length ≤ Config.pfxMax → s.script = scriptCp .pfx src ++ rest → Host.Core.run core 2 s =
        .next { s with op := { s.op with pfx := .written x }, script := rest, hostVar := some (.bytes x) }) ∧
      (x.length ≤ Config.dataMax → s.script = scriptCp .bytes src ++ rest → Host.Core.run core 2 s =
        .next { s with op := { s.op with bytes := .written x }, script := rest, hostVar := some (.bytes x) }) ∧
      ∀ dst ∈ ([.grps, .type, .ver, .hlen] : List OpReg), s.script = scriptCp dst src ++ rest →
        Host.Core.run core 2 s = .refused (.valueDoesNotFit dst)) ∧
    (∀ x : List Group, s.res.value src = some (.groups x) →
      (x.length ≤ Config.dataMax → s.script = scriptCp .grps src ++ rest → Host.Core.run core 2 s =
        .next { s with op := { s.op with grps := .written x }, script := rest, hostVar := some (.groups x) }) ∧
      ∀ dst ∈ ([.pfx, .bytes, .type, .ver, .hlen] : List OpReg), s.script = scriptCp dst src ++ rest →
        Host.Core.run core 2 s = .refused (.valueDoesNotFit dst)) ∧
    (∀ x : Byte, s.res.value src = some (.scalar x.toNat) →
      (s.script = scriptCp .type src ++ rest → Host.Core.run core 2 s =
        .next { s with op := { s.op with type := .written x }, script := rest, hostVar := some (.scalar x.toNat) }) ∧
      (s.script = scriptCp .ver src ++ rest → Host.Core.run core 2 s =
        .next { s with op := { s.op with ver := .written x }, script := rest, hostVar := some (.scalar x.toNat) }) ∧
      (s.script = scriptCp .hlen src ++ rest → Host.Core.run core 2 s =
        .next { s with op := { s.op with hlen := .written x }, script := rest, hostVar := some (.scalar x.toNat) })) ∧
    ∀ n : Nat, s.res.value src = some (.scalar n) →
      (256 ≤ n → ∀ dst ∈ ([.type, .ver, .hlen] : List OpReg), s.script = scriptCp dst src ++ rest →
        Host.Core.run core 2 s = .refused (.valueDoesNotFit dst)) ∧
      ∀ dst ∈ ([.pfx, .bytes, .grps] : List OpReg), s.script = scriptCp dst src ++ rest →
        Host.Core.run core 2 s = .refused (.valueDoesNotFit dst)

/-! ### How a command ends -/

/-- R134, R136 with R15, R46 and R131: a command that ends has written `ST`, and either exactly its 'writes' are valid
or it raised one of its errors and no result is valid; operands and the host's side are unchanged. What
happens on an unwritten operand is UnwrittenOperandRefusesTheCommand. -/
def Obligations.CommandEndsInOneOfTwoWays : Prop :=
  ∀ (i : Instr) (s t : State), exec i s = .next t →
    t.op = s.op ∧ t.script = s.script ∧ t.hostVar = s.hostVar ∧
    ((t.st = 0x80 ∧ ∀ x : ResReg, t.res.isValid x = decide (x ∈ writeSet i)) ∨
      ∃ e ∈ errorSet i, t.st = 0x80#8 ||| e.code.setWidth 8 ∧ t.res = Results.invalid)

/-- R56: the codes of the errors, in the order of the table, are 1 to 11, distinct errors have distinct codes, a command
without an error reports 0, and no command reports 12 to 15: none writes one to `ST`, and a safe state holds none. -/
def Obligations.ErrorCodesAreTheTable : Prop :=
  ([.emptyPrefix, .invalidPrefixCharacter, .missingSeparator, .mixedCase, .invalidAlphabetCharacter, .payloadTooShort,
    .checksumMismatch, .nonZeroPadding, .hashLengthMismatch, .unsupportedVersionType, .illegalCommand] :
    List BlockError).map BlockError.code = [1, 2, 3, 4, 5, 6, 7, 8, 9, 10, 11] ∧
  (∀ e f : BlockError, e.code = f.code → e = f) ∧ successStatus.extractLsb' 0 4 = 0 ∧
  (∀ (i : Instr) (s t : State), exec i s = .next t → (t.st.extractLsb' 0 4).toNat ≤ 11) ∧
  (∀ (b : Byte) (s t : State), runCommand b s = .next t → (t.st.extractLsb' 0 4).toNat ≤ 11) ∧
  ∀ s : State, s.Inv → (s.st.extractLsb' 0 4).toNat ≤ 11

/-- R162: a legal command that reads an operand unwritten since reset is refused, which 93_implementation_defined.md
defines as no transition: no next state, so it does not run, writes no `ST` and is no `IllegalCommand`. A command whose
operands are all written is never refused for that: it ends with `DONE = 1` (R134, R136) or is refused for a result's
capacity (R163), and is no `IllegalCommand`. An illegal byte reads no operand, is never refused and always ends (R47). -/
def Obligations.UnwrittenOperandRefusesTheCommand : Prop :=
  (∀ (i : Instr) (s : State) (r : OpReg), r ∈ readSet i → s.op.written r = false →
    ∃ r' ∈ readSet i, s.op.written r' = false ∧ exec i s = .refused (.unwrittenOperand r')) ∧
  (∀ (i : Instr) (s : State), (∀ r ∈ readSet i, s.op.written r = true) →
    (∃ t, exec i s = .next t ∧ t.st.getLsbD 7 = true ∧ t.st ≠ 0x8B) ∨
      ∃ x : ResReg, exec i s = .refused (.resultOverCapacity x)) ∧
  ∀ (b : Byte) (e : DecodeError) (s : State), Sys2Proof.decode b = .error e →
    ∃ t, runCommand b s = .next t ∧ t.st.getLsbD 7 = true

/-- R163: a host write above a buffer's capacity is refused; on operands within capacity a result overflows in exactly
two cases: `R8TO5` on too many bytes, and a `DECODE` that passes all gates on a text whose prefix is longer than
`PFX_MAX`. -/
def Obligations.ResultOverflowsInExactlyTwoCases : Prop :=
  (∀ (s : State) (x : List Byte), Config.pfxMax < x.length →
    perform (.write .pfx (.bytes x)) s = .refused (.writeOverCapacity .pfx)) ∧
  (∀ (s : State) (x : List Byte), Config.dataMax < x.length →
    perform (.write .bytes (.bytes x)) s = .refused (.writeOverCapacity .bytes)) ∧
  (∀ (s : State) (x : List Group), Config.dataMax < x.length →
    perform (.write .grps (.groups x)) s = .refused (.writeOverCapacity .grps)) ∧
  ∀ (i : Instr) (s : State) (x : ResReg), s.op.pfx.value.length ≤ Config.pfxMax →
    s.op.bytes.value.length ≤ Config.dataMax → s.op.grps.value.length ≤ Config.dataMax →
    (exec i s = .refused (.resultOverCapacity x) ↔
      (∃ pad b g, i = .r8to5 pad ∧ x = .grps ∧ s.op.bytes = .written b ∧ regroup 5 pad b = .ok g ∧
        Config.dataMax < (if pad then (8 * b.length + 4) / 5 else 8 * b.length / 5)) ∨
      ∃ a d, i = .decode ∧ x = .pfx ∧ s.op.bytes = .written a ∧ decodeFn Config.generator a = .ok d ∧
        Config.pfxMax < d.pfx.length ∧ d.pfx.length < a.length)

/-- R21: the results and the status of a command are a function of the command and of the operands it reads; two states
that agree on them get the same results and the same `ST`. -/
def Obligations.ResultDependsOnlyOnOperandsRead : Prop :=
  ∀ (i : Instr) (s s' t : State),
    (∀ r ∈ readSet i, s.op.value r = s'.op.value r ∧ s.op.written r = s'.op.written r) → exec i s = .next t →
    exec i s' = .next { s' with res := t.res, st := t.st }

/-- R36 and R135: a repeated command leaves the same state, and so does its error. -/
def Obligations.RepeatedCommandLeavesTheSameState : Prop :=
  ∀ (i : Instr) (s t : State), exec i s = .next t → exec i t = .next t

/-- R156, derived by the spec from R15 and R21: after any run of the block, a command whose operands the host writes
first behaves as on a freshly reset block: same results, same status. -/
def Obligations.ResetIsNotNeededBetweenCommands : Prop :=
  ∀ (i : Instr) (s t : State), exec i { State.reset with op := s.op } = .next t →
    exec i s = .next { s with res := t.res, st := t.st }

/-! ### The invariant -/

/-- The invariant `State.Inv` holds right after reset. -/
def Obligations.SafeStateAtReset : Prop := State.reset.Inv

/-- R12, R13, R15, R17 at every moment: every step from a safe state, of whatever host action, leads to a safe state. -/
def Obligations.EveryStepKeepsTheStateSafe : Prop :=
  ∀ s t : State, s.Inv → step s = .next t → t.Inv

/-! ### The checksum engine -/

/-- R65: the prefix expansion takes the low five bits of each byte. That case does not matter for letters is an inference
R65 marks as its own (`[derived: 0x41 & 0x1F = 0x61 & 0x1F = 1]`). -/
def Obligations.ExpandTakesTheLowFiveBits : Prop :=
  (∀ p : List Byte, (expand p).length = p.length ∧
    ∀ (i : Nat) (h : i < p.length) (h' : i < (expand p).length), ((expand p)[i]).toNat = (p[i]).toNat % 32) ∧
  (∀ b : Byte, 0x61 ≤ b.toNat → b.toNat ≤ 0x7A → expand [b] = [BitVec.ofNat 5 (b.toNat - 0x60)]) ∧
  (∀ b : Byte, 0x41 ≤ b.toNat → b.toNat ≤ 0x5A → expand [b] = expand [b + 0x20]) ∧
  expand [0x62, 0x69, 0x74, 0x63, 0x6F, 0x69, 0x6E, 0x63, 0x61, 0x73, 0x68] = [2, 9, 20, 3, 15, 9, 14, 3, 1, 19, 8]

/-- R66: the recurrence is the one on plain numbers, which stays below 2^40; its corner cases: the empty sequence, up to
seven elements, the eighth element, and the order of the constants. -/
def Obligations.PolymodIsTheRecurrence : Prop :=
  (∀ (G : Generators) (x : List Group),
    (polymod G x).toNat = natPolymod (fun i => (G i).toNat) (x.map BitVec.toNat)) ∧
  (∀ G : Generators, polymod G [] = 1) ∧
  (∀ (G : Generators) (x : List Group), x.length ≤ 7 →
    (polymod G x).toNat = 2 ^ (5 * x.length) + natOf x) ∧
  (∀ (G : Generators) (x : List Group), x.length = 7 → (polymod G x) >>> 35 = 1) ∧
  (∀ G : Generators, polymod G (List.replicate 8 0) = G 0) ∧
  ∀ (G : Generators) (c0 : BitVec 5) (c : Acc) (order : List (Fin 5)), order.Perm [0, 1, 2, 3, 4] →
    order.foldl (fun a i => if c0.getLsbD i.val then a ^^^ G i else a) c = applyGenerators G c0 c

/-- R68, whose inverses the spec derives: eight groups, most significant first, and the two inverses. -/
def Obligations.ExplodeAndImplodeAreInverse : Prop :=
  (∀ v : Acc, (explode v).length = 8) ∧
  (∀ (v : Acc) (k : Nat) (h : k < (explode v).length), ((explode v)[k]).toNat = v.toNat / 2 ^ (5 * (7 - k)) % 32) ∧
  (∀ v : Acc, implode (explode v) = v) ∧
  (∀ e : List Group, e.length = 8 → explode (implode e) = e) ∧
  explode 0x0123456789 = [0, 4, 17, 20, 10, 25, 28, 9]

/-- R70 law 2, derived by the spec: for every value of the constants, the computed checksum's groups appended to the
data verify. -/
def Obligations.ComputedChecksumVerifies : Prop :=
  ∀ G : Generators, ComputedVerifies G

/-- R70 law 3, derived by the spec: exactly one tail of eight groups verifies, and any other gives the raw accumulator
`1 ^ implode(e) ^ implode(right tail)`. -/
def Obligations.OnlyTheComputedTailVerifies : Prop :=
  ∀ G : Generators, TailIsUnique G

/-- From the recurrence of R66: if `LowFiveIndependent G`, changing one element of a verifying input to another value is
detected, at any length, so that `SingleErrorDetecting G`, R70 law 4, holds of these constants. `LowFiveIndependent` is
this statement's own condition, read off step 3 of R66; R70 law 4 and U8 only name the property and say of no constants
that they have it. -/
def Obligations.OneChangedGroupIsDetected : Prop :=
  (∀ (G : Generators) (x y : List Group) (d d' : Group), LowFiveIndependent G → d ≠ d' →
    polymod G (x ++ d :: y) = 1 → polymod G (x ++ d' :: y) ≠ 1) ∧
  ∀ G : Generators, LowFiveIndependent G → SingleErrorDetecting G

/-- R71: `POLYMOD`. -/
def Obligations.PolymodDeliversTheRawAccumulator : Prop :=
  Sys2Proof.encode .polymod = 0x01 ∧
  ∀ (s : State) (g : List Group), s.op.grps = .written g →
    exec .polymod s = .next
      { s with res := { Results.invalid with ck := some (polymod Config.generator g) }, st := 0x80 } ∧
    (g = [] → polymod Config.generator g = 1) ∧ (g = [1, 2, 3] → polymod Config.generator g = 0x0000008443) ∧
    (g.length ≤ 7 → ∀ G : Generators, polymod G g = polymod Config.generator g)

/-- R72: `CKSUM`. It has no error and checks nothing; the eight placeholder groups are appended by the command. -/
def Obligations.CksumDeliversTheChecksumAndItsGroups : Prop :=
  Sys2Proof.encode .cksum = 0x02 ∧
  (∀ (s : State) (p : List Byte) (g : List Group), s.op.pfx = .written p → s.op.grps = .written g →
    ∃ ck : Acc, ck = polymod Config.generator (expand p ++ [0] ++ g ++ [0, 0, 0, 0, 0, 0, 0, 0]) ^^^ 1 ∧
      exec .cksum s = .next
        { s with res := { Results.invalid with ck := some ck, grps := some (explode ck) }, st := 0x80 }) ∧
  computeChecksum Config.generator [] [] = polymod Config.generator (List.replicate 9 0) ^^^ 1

/-- R73: `VERIFY`. A failed verification is a result, not an error. -/
def Obligations.VerifyDeliversTheFlagAndTheAccumulator : Prop :=
  Sys2Proof.encode .verify = 0x03 ∧
  ∀ (s : State) (p : List Byte) (g : List Group), s.op.pfx = .written p → s.op.grps = .written g →
    ∃ (r : Acc) (flag : Bool), r = polymod Config.generator (expand p ++ [0] ++ g) ∧ (flag = true ↔ r = 1) ∧
      exec .verify s = .next
        { s with res := { Results.invalid with ck := some r, flag := some flag }, st := 0x80 } ∧
      (p = [] → g = [] → r = 0x20 ∧ flag = false)

/-! ### The repackagers -/

/-- R80: `regroup`, defined by the bit stream, is the loop with an accumulator and a bit count, for both width pairs and
both values of `pad`. -/
def Obligations.RegroupIsTheAccumulatorLoop : Prop :=
  (∀ (pad : Bool) (x : List Byte),
    (regroup 5 pad x).map (List.map BitVec.toNat) = loopRegroup 8 5 pad (x.map BitVec.toNat)) ∧
  ∀ (pad : Bool) (x : List Group),
    (regroup 8 pad x).map (List.map BitVec.toNat) = loopRegroup 5 8 pad (x.map BitVec.toNat)

/-- R80, R33: the output read as one number is the input read as one number, shifted by the padding or the dropped bits;
`NonZeroPadding` exactly when a dropped bit is 1. -/
def Obligations.RegroupKeepsTheBitStreamAsANumber : Prop :=
  (∀ x : List Byte, ∃ g : List Group, regroup 5 true x = .ok g ∧ g.length = (8 * x.length + 4) / 5 ∧
    natOf g = natOf x * 2 ^ (5 * g.length - 8 * x.length)) ∧
  (∀ x : List Group, ∃ b : List Byte, regroup 8 true x = .ok b ∧ b.length = (5 * x.length + 7) / 8 ∧
    natOf b = natOf x * 2 ^ (8 * b.length - 5 * x.length)) ∧
  (∀ x : List Byte, if natOf x % 2 ^ (8 * x.length % 5) = 0 then
      ∃ g : List Group, regroup 5 false x = .ok g ∧ g.length = 8 * x.length / 5 ∧
        natOf g = natOf x / 2 ^ (8 * x.length % 5)
    else regroup 5 false x = (.error .nonZeroPadding : Except BlockError (List Group))) ∧
  ∀ x : List Group, if natOf x % 2 ^ (5 * x.length % 8) = 0 then
      ∃ b : List Byte, regroup 8 false x = .ok b ∧ b.length = 5 * x.length / 8 ∧
        natOf b = natOf x / 2 ^ (5 * x.length % 8)
    else regroup 8 false x = (.error .nonZeroPadding : Except BlockError (List Byte))

/-- R81 law 3, derived by the spec: bytes through 8 to 5 with padding and back without it are the same bytes, with no
error. -/
def Obligations.RegroupRoundTripRestoresTheBytes : Prop :=
  ∀ b : List Byte, ∃ g : List Group, regroup 5 true b = .ok g ∧ regroup 8 false g = .ok b

/-- R81 law 6, derived by the spec: the groups an input prefix fills do not depend on what follows. -/
def Obligations.RegroupOutputPrefixDependsOnInputPrefix : Prop :=
  (∀ (x y : List Byte) (pad pad' : Bool) (g g' : List Group), regroup 5 pad x = .ok g → regroup 5 pad' (x ++ y) = .ok g' →
    g'.take (8 * x.length / 5) = g.take (8 * x.length / 5)) ∧
  ∀ (x y : List Group) (pad pad' : Bool) (b b' : List Byte), regroup 8 pad x = .ok b → regroup 8 pad' (x ++ y) = .ok b' →
    b'.take (5 * x.length / 8) = b.take (5 * x.length / 8)

/-- R82: `R8TO5`. `NonZeroPadding` only with `PAD = 0`, only when the low `8n mod 5` bits of the last byte are not
zero. -/
def Obligations.R8to5RegroupsBytesIntoGroups : Prop :=
  Sys2Proof.encode (.r8to5 true) = 0x14 ∧ Sys2Proof.encode (.r8to5 false) = 0x04 ∧
  ∀ (s : State) (pad : Bool) (b : List Byte), s.op.bytes = .written b →
    (∀ g : List Group, regroup 5 pad b = .ok g → g.length ≤ Config.dataMax →
      exec (.r8to5 pad) s = .next { s with res := { Results.invalid with grps := some g }, st := 0x80 }) ∧
    ((∃ last : Byte, pad = false ∧ b.getLast? = some last ∧ last.toNat % 2 ^ (8 * b.length % 5) ≠ 0) →
      exec (.r8to5 pad) s = .next { s with res := Results.invalid, st := 0x88 }) ∧
    ((∃ g : List Group, regroup 5 pad b = .ok g) ∨
      ∃ last : Byte, pad = false ∧ b.getLast? = some last ∧ last.toNat % 2 ^ (8 * b.length % 5) ≠ 0) ∧
    (b = [] → regroup 5 pad b = .ok ([] : List Group)) ∧
    (b.length % 5 = 0 → (regroup 5 false b : Except BlockError (List Group)) = regroup 5 true b) ∧
    (b = [0x12, 0x34] → regroup 5 pad b = .ok (if pad then [2, 8, 26, 0] else [2, 8, 26]))

/-- R83: `R5TO8`. `NonZeroPadding` only with `PAD = 0`, when one of the leftover `5m mod 8` bits is 1. -/
def Obligations.R5to8RegroupsGroupsIntoBytes : Prop :=
  Sys2Proof.encode (.r5to8 true) = 0x15 ∧ Sys2Proof.encode (.r5to8 false) = 0x05 ∧
  ∀ (s : State) (pad : Bool) (g : List Group), s.op.grps = .written g →
    (∀ b : List Byte, regroup 8 pad g = .ok b → g.length ≤ Config.dataMax →
      exec (.r5to8 pad) s = .next { s with res := { Results.invalid with bytes := some b }, st := 0x80 }) ∧
    (pad = false → natOf g % 2 ^ (5 * g.length % 8) ≠ 0 →
      exec (.r5to8 pad) s = .next { s with res := Results.invalid, st := 0x88 }) ∧
    ((∃ b : List Byte, regroup 8 pad g = .ok b) ∨ (pad = false ∧ natOf g % 2 ^ (5 * g.length % 8) ≠ 0)) ∧
    (g = [0] → pad = false → regroup 8 pad g = .ok ([] : List Byte)) ∧
    (g = [1] → regroup 8 pad g = if pad then .ok [0x08] else .error .nonZeroPadding) ∧
    (g = List.replicate 35 0 ∨ g = List.replicate 34 0 → pad = false →
      regroup 8 pad g = .ok (List.replicate 21 (0 : Byte))) ∧
    (g = [2, 8, 26, 0] → pad = false → regroup 8 pad g = .ok [0x12, 0x34]) ∧
    (g = [2, 8, 26, 1] → pad = false → regroup 8 pad g = (.error .nonZeroPadding : Except BlockError (List Byte)))

/-! ### Version byte and alphabet -/

/-- R51: the eight lengths by size class, and the inverse defined for exactly these. -/
def Obligations.LengthTableAndItsInverse : Prop :=
  ((List.range 8).map fun k => lenOf (BitVec.ofNat 3 k)) = [20, 24, 28, 32, 40, 48, 56, 64] ∧
  (∀ sc : BitVec 3, scOf (lenOf sc) = some sc) ∧ ∀ (n : Nat) (sc : BitVec 3), scOf n = some sc → lenOf sc = n

/-- R50, R91: splitting undoes building on every accepted type and length, and every byte splits into its two fields. -/
def Obligations.SplitVersionUndoesMakeVersion : Prop :=
  (∀ (typeMax : Nat) (t v : Byte) (n : Nat), typeMax ≤ 31 → makeVersion typeMax t n = .ok v →
    scOf n = some (splitVersion v).sc ∧ (splitVersion v).type = t.setWidth 5 ∧ (splitVersion v).type.toNat = t.toNat ∧
      (splitVersion v).hlen = n) ∧
  ∀ v : Byte, (splitVersion v).type = v.extractLsb' 3 5 ∧ (splitVersion v).sc = v.extractLsb' 0 3 ∧
    v.toNat = (splitVersion v).type.toNat * 8 + (splitVersion v).sc.toNat

/-- R53: the alphabet is the string of the rule, its characters are distinct, and `VAL` is its inverse, undefined for every
other byte. That they are 23 lowercase letters and 9 digits, without `b`, `i`, `o` and `1`, is an inference R53 marks as its
own (`[derived: by inspection of the string]`). -/
def Obligations.AlphabetIsATableWithAnInverse : Prop :=
  alphabet = "qpzry9x8gf2tvdw0s3jn54khce6mua7l".toList.map (fun ch => BitVec.ofNat 8 ch.toNat) ∧
  (∀ v : Group, alphaVal (alphaChar v) = some v) ∧ (∀ (b : Byte) (v : Group), alphaVal b = some v → alphaChar v = b) ∧
  (∀ b : Byte, alphaVal b = none ↔ b ∉ alphabet) ∧ alphabet.length = 32 ∧
  (alphabet.countP fun b => decide (0x61 ≤ b.toNat ∧ b.toNat ≤ 0x7A)) = 23 ∧
  (alphabet.countP fun b => decide (0x30 ≤ b.toNat ∧ b.toNat ≤ 0x39)) = 9 ∧
  (∀ b ∈ ([0x62, 0x69, 0x6F, 0x31] : List Byte), b ∉ alphabet) ∧
  ((List.range 32).map fun v => alphaChar (BitVec.ofNat 5 v)) = alphabet

/-- R92, whose two laws the spec derives: decoding undoes encoding for every group sequence, and encoding a decoded
text gives its lowercase form. -/
def Obligations.B32DecodeUndoesB32Encode : Prop :=
  (∀ g : List Group, b32Decode (b32Encode g) = .ok g) ∧
  ∀ (x : List Byte) (g : List Group), b32Decode x = .ok g → b32Encode g = x.map foldCase

/-- R94: `MKVER`, on a supported length and type, on an unsupported length, and on an unsupported type. -/
def Obligations.MkverBuildsTheVersionByte : Prop :=
  Sys2Proof.encode .mkver = 0x06 ∧ (∀ sc : BitVec 3, lenOf sc ≠ 0) ∧ Config.typeMax < 32 ∧
  ∀ (s : State) (t n : Byte), s.op.type = .written t → s.op.hlen = .written n →
    (∀ sc : BitVec 3, n.toNat = lenOf sc → t.toNat ≤ Config.typeMax →
      exec .mkver s = .next
        { s with
          res := { Results.invalid with
            ver := some ((t <<< 3) ||| sc.setWidth 8), type := some (t.setWidth 5), sc := some sc,
            hlen := some (n.setWidth 7) }
          st := 0x80 } ∧ (t.setWidth 5).toNat = t.toNat ∧ (n.setWidth 7).toNat = n.toNat) ∧
    ((∀ sc : BitVec 3, n.toNat ≠ lenOf sc) →
      exec .mkver s = .next { s with res := Results.invalid, st := 0x89 }) ∧
    ((∃ sc : BitVec 3, n.toNat = lenOf sc) → Config.typeMax < t.toNat →
      exec .mkver s = .next { s with res := Results.invalid, st := 0x8A })

/-- R95: `VERCHK`, on the implied length and on any other; every type is accepted. -/
def Obligations.VerchkSplitsAndChecksTheVersionByte : Prop :=
  Sys2Proof.encode .verchk = 0x07 ∧
  ∀ (s : State) (v n : Byte), s.op.ver = .written v → s.op.hlen = .written n →
    (n.toNat = lenOf (v.extractLsb' 0 3) →
      exec .verchk s = .next
        { s with
          res := { Results.invalid with
            ver := some v, type := some (v.extractLsb' 3 5), sc := some (v.extractLsb' 0 3),
            hlen := some (n.setWidth 7) }
          st := 0x80 }) ∧
    (n.toNat ≠ lenOf (v.extractLsb' 0 3) → exec .verchk s = .next { s with res := Results.invalid, st := 0x89 })

/-- R96: `B32ENC` maps each group to its character; the text holds no uppercase letter. -/
def Obligations.B32encMapsGroupsToCharacters : Prop :=
  Sys2Proof.encode .b32enc = 0x08 ∧
  ∀ (s : State) (g : List Group), s.op.grps = .written g → g.length ≤ Config.dataMax →
    exec .b32enc s = .next { s with res := { Results.invalid with bytes := some (g.map alphaChar) }, st := 0x80 } ∧
    (∀ b ∈ g.map alphaChar, b ∈ alphabet ∧ ¬ (0x41 ≤ b.toNat ∧ b.toNat ≤ 0x5A)) ∧
    (g = [0, 1, 2, 3, 4, 31] → g.map alphaChar = [0x71, 0x70, 0x7A, 0x72, 0x79, 0x6C])

/-- R97: `B32DEC`: mixed case first, then a character outside the alphabet, else the groups the text spells; one of the
three always applies. -/
def Obligations.B32decChecksCaseThenAlphabet : Prop :=
  Sys2Proof.encode .b32dec = 0x09 ∧
  ∀ (s : State) (x : List Byte), s.op.bytes = .written x →
    (MixedText x → exec .b32dec s = .next { s with res := Results.invalid, st := 0x84 }) ∧
    (¬ MixedText x → (∃ b ∈ x, foldCase b ∉ alphabet) →
      exec .b32dec s = .next { s with res := Results.invalid, st := 0x85 }) ∧
    (∀ g : List Group, Spells x g → g.length ≤ Config.dataMax →
      exec .b32dec s = .next { s with res := { Results.invalid with grps := some g }, st := 0x80 }) ∧
    (¬ MixedText x → (∀ b ∈ x, foldCase b ∈ alphabet) → ∃ g : List Group, Spells x g)

/-! ### The encoder -/

/-- R101: `ENCODE` on valid operands delivers the address text and nothing else, and it raises no error but its four. -/
def Obligations.EncodeDeliversTheAddressText : Prop :=
  Sys2Proof.encode .encode = 0x0A ∧
  (∀ (s : State) (p h : List Byte) (t : Byte) (sc : BitVec 3),
    s.op.pfx = .written p → s.op.type = .written t → s.op.bytes = .written h →
    ValidPfx p → p.length ≤ Config.pfxMax → h.length = lenOf sc → t.toNat ≤ Config.typeMax →
    ∃ (g : List Group) (ck : Acc), regroup 5 true (((t <<< 3) ||| sc.setWidth 8) :: h) = .ok g ∧
      ck = polymod Config.generator (expand p ++ [0] ++ g ++ [0, 0, 0, 0, 0, 0, 0, 0]) ^^^ 1 ∧
      exec .encode s = .next
        { s with
          res := { Results.invalid with bytes := some (p ++ [0x3A] ++ (g ++ explode ck).map alphaChar) }
          st := 0x80 } ∧
      (p ++ [0x3A] ++ (g ++ explode ck).map alphaChar).length = p.length + 1 + (8 * (h.length + 1) + 4) / 5 + 8) ∧
  ∀ s t : State, exec .encode s = .next t → t.st ∈ ([0x80, 0x81, 0x82, 0x89, 0x8A] : List (BitVec 8))

/-- R102: the four checks of `ENCODE` in their order, each deciding the error when the ones before it pass. -/
def Obligations.EncodeChecksInOrder : Prop :=
  ∀ (s : State) (p h : List Byte) (t : Byte), s.op.pfx = .written p → s.op.type = .written t → s.op.bytes = .written h →
    (p = [] → exec .encode s = .next { s with res := Results.invalid, st := 0x81 }) ∧
    (p ≠ [] → (∃ b ∈ p, b.toNat < 0x61 ∨ 0x7A < b.toNat) →
      exec .encode s = .next { s with res := Results.invalid, st := 0x82 }) ∧
    (ValidPfx p → h.length ∉ ([20, 24, 28, 32, 40, 48, 56, 64] : List Nat) →
      exec .encode s = .next { s with res := Results.invalid, st := 0x89 }) ∧
    (ValidPfx p → h.length ∈ ([20, 24, 28, 32, 40, 48, 56, 64] : List Nat) → Config.typeMax < t.toNat →
      exec .encode s = .next { s with res := Results.invalid, st := 0x8A })

/-- R103, derived by the spec: the shape of the output: its length, one separator, the alphabet of the payload, and
the first character. -/
def Obligations.EncodedTextHasTheStatedShape : Prop :=
  ∀ (G : Generators) (typeMax : Nat) (p h text : List Byte) (t : Byte), typeMax ≤ 31 →
    encodeFn G typeMax p t h = .ok text →
    text.length = p.length + 1 + (8 * (h.length + 1) + 4) / 5 + 8 ∧ text.count 0x3A = 1 ∧ text.take p.length = p ∧
    (∀ b ∈ text.drop (p.length + 1), b ∈ alphabet) ∧ text[p.length + 1]? = some (alphaChar (t.setWidth 5))

/-- R104 (d): all of the text but its last eight characters is the same for every value of the constants. -/
def Obligations.EncodedTextDependsOnConstantsOnlyInItsTail : Prop :=
  ∀ (G G' : Generators) (typeMax : Nat) (p h text : List Byte) (t : Byte), encodeFn G typeMax p t h = .ok text →
    ∃ text', encodeFn G' typeMax p t h = .ok text' ∧ text'.length = text.length ∧
      text'.take (text.length - 8) = text.take (text.length - 8)

/-- R104 (b), derived by the spec: the text `ENCODE` delivers, given to `DECODE`, gives back the prefix, the type, the
hash and the version byte. -/
def Obligations.DecodeReturnsWhatEncodeWasGiven : Prop :=
  ∀ (s s' t : State) (p h text : List Byte) (ty : Byte),
    s.op.pfx = .written p → s.op.type = .written ty → s.op.bytes = .written h → p.length ≤ Config.pfxMax →
    exec .encode s = .next t → t.st = 0x80 → t.res.bytes = some text → s'.op.bytes = .written text →
    ∃ (sc : BitVec 3) (n : BitVec 7), lenOf sc = h.length ∧ n.toNat = h.length ∧
      exec .decode s' = .next
        { s' with
          res := { Results.invalid with
            pfx := some p, ver := some ((ty <<< 3) ||| sc.setWidth 8), type := some (ty.setWidth 5), sc := some sc,
            hlen := some n, bytes := some h }
          st := 0x80 } ∧ (ty.setWidth 5).toNat = ty.toNat

/-- R105, derived by the spec: the four primitive commands, each given what the one before it delivered, compose to
the text of `ENCODE`. -/
def Obligations.PrimitivesComposeToEncode : Prop :=
  ∀ (s : State) (p h text : List Byte) (t : Byte), p.length ≤ Config.pfxMax →
    encodeFn Config.generator Config.typeMax p t h = .ok text →
    ∃ (s1 s2 s3 s4 : State) (ver : Byte) (g cg : List Group) (x : List Byte),
      exec .mkver { s with op := { s.op with type := .written t, hlen := .written (BitVec.ofNat 8 h.length) } } = .next s1 ∧
      s1.res.ver = some ver ∧
      exec (.r8to5 true) { s1 with op := { s1.op with bytes := .written (ver :: h) } } = .next s2 ∧
      s2.res.grps = some g ∧
      exec .cksum { s2 with op := { s2.op with pfx := .written p, grps := .written g } } = .next s3 ∧
      s3.res.grps = some cg ∧
      exec .b32enc { s3 with op := { s3.op with grps := .written (g ++ cg) } } = .next s4 ∧
      s4.res.bytes = some x ∧ text = p ++ [0x3A] ++ x

/-! ### The decoder -/

/-- R111: `DECODE` on a text that passes every gate delivers exactly its fields, and its errors are the codes 1 to 9. -/
def Obligations.DecodeDeliversTheFields : Prop :=
  Sys2Proof.encode .decode = 0x0B ∧
  (∀ (s : State) (p x h : List Byte) (v : Byte) (g : List Group),
    s.op.bytes = .written (p ++ [0x3A] ++ x) → ValidPfx p → p.length ≤ Config.pfxMax → Spells x g → 9 ≤ g.length →
    Verifies p g → regroup 8 false (g.take (g.length - 8)) = .ok (v :: h) → h.length = lenOf (v.extractLsb' 0 3) →
    exec .decode s = .next
      { s with
        res := { Results.invalid with
          pfx := some p, ver := some v, type := some (v.extractLsb' 3 5), sc := some (v.extractLsb' 0 3),
          hlen := some (BitVec.ofNat 7 h.length), bytes := some h }
        st := 0x80 }) ∧
  ∀ s t : State, exec .decode s = .next t →
    t.st ∈ ([0x80, 0x81, 0x82, 0x83, 0x84, 0x85, 0x86, 0x87, 0x88, 0x89] : List (BitVec 8))

/-- R112, R113: gate 1: one separator, a prefix, lowercase letters only, whatever the payload. -/
def Obligations.DecodeGateOneSplitsAndChecksThePrefix : Prop :=
  ∀ (s : State) (a : List Byte), s.op.bytes = .written a →
    (a.count 0x3A ≠ 1 → exec .decode s = .next { s with res := Results.invalid, st := 0x83 }) ∧
    ∀ p x : List Byte, a = p ++ [0x3A] ++ x → 0x3A ∉ p → 0x3A ∉ x →
      (p = [] → exec .decode s = .next { s with res := Results.invalid, st := 0x81 }) ∧
      (p ≠ [] → (∃ b ∈ p, b.toNat < 0x61 ∨ 0x7A < b.toNat) →
        exec .decode s = .next { s with res := Results.invalid, st := 0x82 })

/-- R114, R115, R116: gates 2 to 4 after a valid prefix: case, alphabet, length, in this order. -/
def Obligations.DecodeGatesTwoToFour : Prop :=
  ∀ (s : State) (p x : List Byte), s.op.bytes = .written (p ++ [0x3A] ++ x) → ValidPfx p → 0x3A ∉ x →
    (MixedText x → exec .decode s = .next { s with res := Results.invalid, st := 0x84 }) ∧
    (¬ MixedText x → (∃ b ∈ x, foldCase b ∉ alphabet) →
      exec .decode s = .next { s with res := Results.invalid, st := 0x85 }) ∧
    (∀ g : List Group, Spells x g → g.length < 9 →
      exec .decode s = .next { s with res := Results.invalid, st := 0x86 })

/-- R117, R118, R119: gates 5 to 7 on a payload that spells at least nine groups: checksum, padding, hash length, in
this order. -/
def Obligations.DecodeGatesFiveToSeven : Prop :=
  ∀ (s : State) (p x : List Byte) (g : List Group), s.op.bytes = .written (p ++ [0x3A] ++ x) → ValidPfx p → Spells x g →
    9 ≤ g.length →
    (¬ Verifies p g → exec .decode s = .next { s with res := Results.invalid, st := 0x87 }) ∧
    (Verifies p g → natOf (g.take (g.length - 8)) % 2 ^ (5 * (g.length - 8) % 8) ≠ 0 →
      exec .decode s = .next { s with res := Results.invalid, st := 0x88 }) ∧
    (Verifies p g → regroup 8 false (g.take (g.length - 8)) = .ok ([] : List Byte) →
      exec .decode s = .next { s with res := Results.invalid, st := 0x89 }) ∧
    (∀ (v : Byte) (h : List Byte), Verifies p g → regroup 8 false (g.take (g.length - 8)) = .ok (v :: h) →
      h.length ≠ lenOf (v.extractLsb' 0 3) → exec .decode s = .next { s with res := Results.invalid, st := 0x89 })

/-- R122, derived by the spec, which speaks of a hash of 20 bytes; the other lengths follow from R80 and R118
likewise: a text with one more data group of zero than `ENCODE` writes decodes to the same fields where the leftover
stays below 8 bits (20, 24, 32, 40 and 64 bytes), so decoding is not injective; for 28, 48 and 56 bytes it is
`HashLengthMismatch`, and so are two more groups for every length. -/
def Obligations.SuperfluousZeroGroupDecodesToTheSameFields : Prop :=
  ∀ (G : Generators) (typeMax : Nat) (p h : List Byte) (t ver : Byte) (g : List Group), typeMax ≤ 31 → ValidPfx p →
    makeVersion typeMax t h.length = .ok ver → regroup 5 true (ver :: h) = .ok g →
    ∃ d : Decoded, decodeFn G (assemble G p g) = .ok d ∧ d.pfx = p ∧ d.ver = ver ∧ d.hash = h ∧
      assemble G p g ≠ assemble G p (g ++ [0]) ∧
      (h.length ∈ ([20, 24, 32, 40, 64] : List Nat) → decodeFn G (assemble G p (g ++ [0])) = .ok d) ∧
      (h.length ∈ ([28, 48, 56] : List Nat) →
        decodeFn G (assemble G p (g ++ [0])) = .error .hashLengthMismatch) ∧
      decodeFn G (assemble G p (g ++ [0, 0])) = .error .hashLengthMismatch

/-- R123, derived by the spec: the primitive commands, gate by gate, deliver the fields that the decoder delivers. -/
def Obligations.PrimitivesComposeToDecode : Prop :=
  ∀ (s : State) (p x : List Byte) (d : Decoded), p.length ≤ Config.pfxMax → x.length ≤ Config.dataMax → 0x3A ∉ p →
    decodeFn Config.generator (p ++ [0x3A] ++ x) = .ok d →
    ∃ (s1 s2 s3 s4 : State) (g : List Group) (v : Byte) (h : List Byte),
      exec .b32dec { s with op := { s.op with bytes := .written x } } = .next s1 ∧ s1.res.grps = some g ∧ 9 ≤ g.length ∧
      exec .verify { s1 with op := { s1.op with pfx := .written p, grps := .written g } } = .next s2 ∧
      s2.res.flag = some true ∧
      exec (.r5to8 false) { s2 with op := { s2.op with grps := .written (g.take (g.length - 8)) } } = .next s3 ∧
      s3.res.bytes = some (v :: h) ∧
      exec .verchk { s3 with op := { s3.op with ver := .written v, hlen := .written (BitVec.ofNat 8 h.length) } } = .next s4 ∧
      s4.res.type = some d.type ∧ s4.res.sc = some d.sc ∧ s4.res.hlen = some (BitVec.ofNat 7 d.hlen) ∧
      d.pfx = p ∧ d.ver = v ∧ d.hash = h

/-- R119 (b), R91, R131: neither `DECODE` nor `VERCHK` ever looks at the type: every version byte of the right size
class passes, and neither raises `UnsupportedVersionType`. -/
def Obligations.DecoderNeverRejectsAType : Prop :=
  (∀ (G : Generators) (a : List Byte), decodeFn G a ≠ .error .unsupportedVersionType) ∧
  (∀ (v : Byte) (n : Nat), checkVersion v n ≠ .error .unsupportedVersionType) ∧
  ∀ (v w : Byte) (p h : List Byte), v.extractLsb' 0 3 = w.extractLsb' 0 3 →
    ((extractFields p (v :: h)).toOption.isSome = (extractFields p (w :: h)).toOption.isSome)

/-- R121 item 2, R70 laws 3 and 4, U8: replacing one payload character of a text the decoder accepts by a character of
another value, the payload staying of one case, is `ChecksumMismatch`: anywhere under the named assumption
`SingleErrorDetecting`, and in the last eight characters for every value of the constants. -/
def Obligations.OneChangedCharacterIsChecksumMismatch : Prop :=
  ∀ (G : Generators) (p x y : List Byte) (a b : Byte) (d : Decoded),
    decodeFn G (p ++ [0x3A] ++ (x ++ a :: y)) = .ok d → foldCase b ∈ alphabet → foldCase b ≠ foldCase a →
    ¬ MixedText (x ++ b :: y) → SingleErrorDetecting G ∨ y.length < 8 →
    decodeFn G (p ++ [0x3A] ++ (x ++ b :: y)) = .error .checksumMismatch ∧
    (G = Config.generator → ∀ s : State, s.op.bytes = .written (p ++ [0x3A] ++ (x ++ b :: y)) →
      exec .decode s = .next { s with res := Results.invalid, st := 0x87 })

/-! ### Unwritten operands -/

/-- 93_implementation_defined.md, treatment refuse ('the model has no transition for the host action; a trace containing
it is not a behaviour of the model'), with U21, U26: a step is refused for an unwritten operand exactly when the oldest
action is a legal command, or a host read, of an operand unwritten since reset. -/
def Obligations.RefusedActionHasNoTransition : Prop :=
  (∀ s : State, (∃ r, step s = .refused (.unwrittenOperand r)) ↔
    ∃ b rest i, s.script = .command b :: rest ∧ Sys2Proof.decode b = .ok i ∧ ∃ r ∈ readSet i, s.op.written r = false) ∧
  ∀ (s : State) (r : OpReg), step s = .refused (.readUnwrittenOperand r) ↔
    ∃ rest, s.script = .read (.op r) :: rest ∧ s.op.written r = false

/-- R23, R14: 'a host write makes it written for good', and only the reset event makes it unwritten again: what each
step that answers leaves of the mark of each operand register. -/
def Obligations.OnlyWriteAndResetChangeTheMark : Prop :=
  ∀ (s t : State) (a : HostAction) (rest : List HostAction) (r : OpReg), s.script = a :: rest → step s = .next t →
    (t.op.written r = true ↔
      a ≠ .reset ∧ (s.op.written r = true ∨ a = .writeVar r ∨ ∃ v, a = .write r v))

/-- R162, U22: 'a proof must not depend on what' the storage of an unwritten operand holds. Two states that differ in
nothing but what unwritten operands hold (the model's own constants, log entry 2, DESIGN CHOICE) answer every host action
alike, and the two states after it again differ in nothing else. -/
def Obligations.UnwrittenValueIsNeverSeen : Prop :=
  ∀ (a : HostAction) (s : State) (o : Operands),
    (∀ r : OpReg, o.written r = s.op.written r ∧ (s.op.written r = true → o.value r = s.op.value r)) →
    (∀ t, perform a s = .next t → ∃ o' : Operands, perform a { s with op := o } = .next { t with op := o' } ∧
      ∀ r : OpReg, o'.written r = t.op.written r ∧ (t.op.written r = true → o'.value r = t.op.value r)) ∧
    ∀ x, perform a s = .refused x → perform a { s with op := o } = .refused x
end

