-- ==== Sys2Proof/Laws/State.lean ====
section
/-! SUPPORT. One lemma per field per update of the state, so that no proof unfolds a record update. -/

namespace Sys2Proof.Machine

variable (s : State) (o : Operands) (v : Value) (acts : List HostAction) (e : BlockError) (r : Results)

@[simp] theorem withOp_op : (s.withOp o).op = o := rfl
@[simp] theorem withOp_res : (s.withOp o).res = s.res := rfl
@[simp] theorem withOp_st : (s.withOp o).st = s.st := rfl
@[simp] theorem withOp_script : (s.withOp o).script = s.script := rfl
@[simp] theorem withOp_hostVar : (s.withOp o).hostVar = s.hostVar := rfl

@[simp] theorem withHostVar_op : (s.withHostVar v).op = s.op := rfl
@[simp] theorem withHostVar_res : (s.withHostVar v).res = s.res := rfl
@[simp] theorem withHostVar_st : (s.withHostVar v).st = s.st := rfl
@[simp] theorem withHostVar_script : (s.withHostVar v).script = s.script := rfl
@[simp] theorem withHostVar_hostVar : (s.withHostVar v).hostVar = some v := rfl

@[simp] theorem withScript_op : (s.withScript acts).op = s.op := rfl
@[simp] theorem withScript_res : (s.withScript acts).res = s.res := rfl
@[simp] theorem withScript_st : (s.withScript acts).st = s.st := rfl
@[simp] theorem withScript_script : (s.withScript acts).script = acts := rfl
@[simp] theorem withScript_hostVar : (s.withScript acts).hostVar = s.hostVar := rfl

@[simp] theorem raiseError_op : (raiseError e s).op = s.op := rfl
@[simp] theorem raiseError_res : (raiseError e s).res = Results.invalid := rfl
@[simp] theorem raiseError_st : (raiseError e s).st = errorStatus e := rfl
@[simp] theorem raiseError_script : (raiseError e s).script = s.script := rfl
@[simp] theorem raiseError_hostVar : (raiseError e s).hostVar = s.hostVar := rfl

@[simp] theorem deliver_op : (deliver r s).op = s.op := rfl
@[simp] theorem deliver_res : (deliver r s).res = r := rfl
@[simp] theorem deliver_st : (deliver r s).st = successStatus := rfl
@[simp] theorem deliver_script : (deliver r s).script = s.script := rfl
@[simp] theorem deliver_hostVar : (deliver r s).hostVar = s.hostVar := rfl

@[simp] theorem resetBlock_op : (resetBlock s).op = Operands.unwritten := rfl
@[simp] theorem resetBlock_res : (resetBlock s).res = Results.invalid := rfl
@[simp] theorem resetBlock_st : (resetBlock s).st = 0x00 := rfl
@[simp] theorem resetBlock_script : (resetBlock s).script = s.script := rfl
@[simp] theorem resetBlock_hostVar : (resetBlock s).hostVar = s.hostVar := rfl

end Sys2Proof.Machine
end

