-- ==== Sys2Proof/Laws/Ops.lean ====
section
/-! SUPPORT. What the shared operations can do, said once each: whole-buffer access, capacity, the end of a command,
reading an operand, and the command step as a whole. -/

namespace Sys2Proof.Machine

/-! ### Whole buffers (R32) -/

@[simp] theorem getWhole_eq {α : Type} (b : List α) : getWhole b = b := by
  simp [getWhole, memRead]

@[simp] theorem putWhole_eq {w : Nat} (x : List (BitVec w)) : putWhole x = some x := by
  simp [putWhole, memWrite]

theorem memRead_memWrite {α : Type} (b x c : List α) (i n : Nat) (h : memWrite b i n x = some c) :
    memRead c i n = some x := by
  unfold memWrite at h
  split at h
  case isFalse => cases h
  rename_i hx
  obtain ⟨rfl, hle⟩ := hx
  obtain rfl := Option.some.inj h
  have hi : (b.take i).length = i := List.length_take_of_le (by omega)
  have hlen : i + x.length ≤ (b.take i ++ x ++ b.drop (i + x.length)).length := by
    simp only [List.length_append, hi]
    omega
  rw [memRead, if_pos hlen, List.append_assoc, List.drop_append_of_le_length (by omega),
    List.drop_eq_nil_of_le (by omega)]
  simp

/-! ### Status words (R17, R56) -/

@[simp] theorem successStatus_eq : successStatus = 0x80 := by decide

theorem errorStatus_eq (e : BlockError) : errorStatus e = 0x80#8 ||| e.code.setWidth 8 := by
  cases e <;> decide

theorem errorStatus_ne_success (e : BlockError) : errorStatus e ≠ 0x80 := by cases e <;> decide

theorem errorStatus_injective (e f : BlockError) (h : errorStatus e = errorStatus f) : e = f := by
  revert h
  cases e <;> cases f <;> decide

/-! ### Capacity (R163) -/

theorem pfxMax_add_le_dataMax : Config.pfxMax + 113 ≤ Config.dataMax := by
  unfold Config.dataMax; omega

theorem one_le_pfxMax : 1 ≤ Config.pfxMax := by
  unfold Config.pfxMax; omega

theorem typeMax_bounds : 1 ≤ Config.typeMax ∧ Config.typeMax ≤ 31 := by
  unfold Config.typeMax
  have := Config.typeMaxRoom.isLt
  omega

@[simp] theorem exceeds_none {α : Type} (cap : Nat) : exceeds cap (none : Option (List α)) = false := rfl

@[simp] theorem exceeds_some {α : Type} (cap : Nat) (x : List α) :
    exceeds cap (some x) = decide (cap < x.length) := rfl

theorem overCapacity_eq_none (r : Results) :
    r.overCapacity = none ↔ exceeds Config.pfxMax r.pfx = false ∧ exceeds Config.dataMax r.bytes = false ∧
      exceeds Config.dataMax r.grps = false := by
  unfold Results.overCapacity
  cases exceeds Config.pfxMax r.pfx <;> cases exceeds Config.dataMax r.bytes <;>
    cases exceeds Config.dataMax r.grps <;> simp

/-- What an unexceeded capacity says of each result buffer. -/
theorem overCapacity_fits (r : Results) (h : r.overCapacity = none) :
    (∀ p, r.pfx = some p → p.length ≤ Config.pfxMax) ∧ (∀ b, r.bytes = some b → b.length ≤ Config.dataMax) ∧
      ∀ g, r.grps = some g → g.length ≤ Config.dataMax := by
  obtain ⟨hp, hb, hg⟩ := (overCapacity_eq_none r).mp h
  refine ⟨fun p e => ?_, fun b e => ?_, fun g e => ?_⟩
  · simpa [e] using hp
  · simpa [e] using hb
  · simpa [e] using hg

/-! ### The end of a command (R134, R136) -/

theorem complete_eq_next (r : Results) (s t : State) :
    complete r s = .next t ↔ r.overCapacity = none ∧ t = deliver r s := by
  unfold complete
  cases r.overCapacity with
  | none => simp [eq_comm]
  | some x => simp

theorem complete_fits (r : Results) (s : State) (h : r.overCapacity = none) : complete r s = .next (deliver r s) :=
  (complete_eq_next r s _).mpr ⟨h, rfl⟩

@[simp] theorem finish_error (e : BlockError) (s : State) : finish (.error e) s = .next (raiseError e s) := rfl

@[simp] theorem finish_ok (r : Results) (s : State) : finish (.ok r) s = complete r s := rfl

/-- A command that answers a next state ended in one of the two ways of R134 and R136. -/
theorem finish_eq_next (outcome : Except BlockError Results) (s t : State) :
    finish outcome s = .next t ↔
      (∃ r, outcome = .ok r ∧ r.overCapacity = none ∧ t = deliver r s) ∨
      ∃ e, outcome = .error e ∧ t = raiseError e s := by
  cases outcome with
  | ok r => simp [complete_eq_next]
  | error e => simp [eq_comm]

/-- A command that is refused at its end had a result over capacity (R163). -/
theorem finish_eq_refused (outcome : Except BlockError Results) (s : State) (x : Refusal) :
    finish outcome s = .refused x ↔
      ∃ r reg, outcome = .ok r ∧ r.overCapacity = some reg ∧ x = .resultOverCapacity reg := by
  cases outcome with
  | ok r =>
    simp only [finish_ok, complete]
    cases h : r.overCapacity with
    | none => simp [h]
    | some y =>
      simp only [Host.Outcome.refused.injEq, Except.ok.injEq]
      exact ⟨fun e => ⟨r, y, rfl, h, e.symm⟩, fun ⟨_, _, e, hc, hx⟩ => by subst e; simp_all⟩
  | error e => simp

/-! ### Reading an operand (R162) -/

@[simp] theorem need_written {α : Type} (r : OpReg) (v : α) (k : α → Answer) :
    need r (.written v) k = k v := rfl

@[simp] theorem need_unwritten {α : Type} (r : OpReg) (v : α) (k : α → Answer) :
    need r (.unwritten v) k = .refused (.unwrittenOperand r) := rfl

@[simp] theorem value_unwritten {α : Type} (v : α) : (Held.unwritten v).value = v := rfl
@[simp] theorem value_written {α : Type} (v : α) : (Held.written v).value = v := rfl
@[simp] theorem isWritten_unwritten {α : Type} (v : α) : (Held.unwritten v).isWritten = false := rfl
@[simp] theorem isWritten_written {α : Type} (v : α) : (Held.written v).isWritten = true := rfl
@[simp] theorem lastWritten_unwritten {α : Type} (v : α) : (Held.unwritten v).lastWritten = none := rfl
@[simp] theorem lastWritten_written {α : Type} (v : α) : (Held.written v).lastWritten = some v := rfl

theorem isWritten_iff {α : Type} (h : Held α) : h.isWritten = true ↔ h = .written h.value := by
  cases h <;> simp [Held.isWritten, Held.value]

/-! ### The command step as a whole -/

/-- What a command computes from its operands, where all it reads are written (R20, R21): its results or its error. -/
def commandOutcome (i : Instr) (o : Operands) : Option (Except BlockError Results) :=
  match i with
  | .polymod => o.grps.lastWritten.map fun g => .ok { Results.invalid with ck := some (polymod Config.generator g) }
  | .cksum => o.pfx.lastWritten.bind fun p => o.grps.lastWritten.map fun g =>
      .ok { Results.invalid with
        ck := some (computeChecksum Config.generator p g)
        grps := some (explode (computeChecksum Config.generator p g)) }
  | .verify => o.pfx.lastWritten.bind fun p => o.grps.lastWritten.map fun g =>
      .ok { Results.invalid with
        ck := some (polymod Config.generator (ckInput p g))
        flag := some (polymod Config.generator (ckInput p g) == 1) }
  | .r8to5 pad => o.bytes.lastWritten.map fun b => (regroup 5 pad b).map fun g => { Results.invalid with grps := some g }
  | .r5to8 pad => o.grps.lastWritten.map fun g => (regroup 8 pad g).map fun b => { Results.invalid with bytes := some b }
  | .mkver => o.type.lastWritten.bind fun t => o.hlen.lastWritten.map fun n =>
      (makeVersion Config.typeMax t n.toNat).map versionResults
  | .verchk => o.ver.lastWritten.bind fun v => o.hlen.lastWritten.map fun n => (checkVersion v n.toNat).map fun f =>
      { Results.invalid with
        ver := some v, type := some f.type, sc := some f.sc, hlen := some (BitVec.ofNat 7 f.hlen) }
  | .b32enc => o.grps.lastWritten.map fun g => .ok { Results.invalid with bytes := some (b32Encode g) }
  | .b32dec => o.bytes.lastWritten.map fun x => (b32Decode x).map fun g => { Results.invalid with grps := some g }
  | .encode => o.pfx.lastWritten.bind fun p => o.type.lastWritten.bind fun t => o.bytes.lastWritten.map fun h =>
      (encodeFn Config.generator Config.typeMax p t h).map fun text => { Results.invalid with bytes := some text }
  | .decode => o.bytes.lastWritten.map fun a => (decodeFn Config.generator a).map decodedResults

/-- The first operand register that a command reads and that is unwritten since reset. -/
def firstUnwritten (i : Instr) (o : Operands) : Option OpReg := (readSet i).find? fun r => !o.written r

theorem firstUnwritten_spec (i : Instr) (o : Operands) (r : OpReg) (h : firstUnwritten i o = some r) :
    r ∈ readSet i ∧ o.written r = false :=
  ⟨List.mem_of_find?_eq_some h, by simpa using List.find?_some h⟩

/-- A command whose operands are written ends as its outcome says; otherwise it is refused for the first unwritten operand
it reads. The one lemma about `exec` from which the whole-machine statements follow. -/
theorem exec_eq (i : Instr) (s : State) :
    (∃ outcome, commandOutcome i s.op = some outcome ∧ exec i s = finish outcome s) ∨
      (commandOutcome i s.op = none ∧ ∃ r, firstUnwritten i s.op = some r ∧
        exec i s = .refused (.unwrittenOperand r)) := by
  obtain ⟨⟨pfx, bytes, grps, type, ver, hlen⟩, res, st, script, hostVar⟩ := s
  cases i <;> simp only [exec, execPolymod, execCksum, execVerify, execR8to5, execR5to8, execMkver, execVerchk,
    execB32enc, execB32dec, execEncode, execDecode, commandOutcome, firstUnwritten, readSet, getWhole_eq, putWhole_eq]
  case polymod => cases grps <;> simp [Operands.written, List.find?]
  case cksum => cases pfx <;> cases grps <;> simp [Operands.written, List.find?]
  case verify => cases pfx <;> cases grps <;> simp [Operands.written, List.find?]
  case r8to5 => cases bytes <;> simp [Operands.written, List.find?]
  case r5to8 => cases grps <;> simp [Operands.written, List.find?]
  case mkver => cases type <;> cases hlen <;> simp [Operands.written, List.find?]
  case verchk => cases ver <;> cases hlen <;> simp [Operands.written, List.find?]
  case b32enc => cases grps <;> simp [Operands.written, List.find?]
  case b32dec => cases bytes <;> simp [Operands.written, List.find?]
  case encode => cases pfx <;> cases type <;> cases bytes <;> simp [Operands.written, List.find?]
  case decode => cases bytes <;> simp [Operands.written, List.find?]

/-- The outcome of a command is known exactly where the operands it reads are written. -/
theorem commandOutcome_isSome (i : Instr) (o : Operands) :
    (commandOutcome i o).isSome = (readSet i).all o.written := by
  obtain ⟨pfx, bytes, grps, type, ver, hlen⟩ := o
  cases i <;> simp only [commandOutcome, readSet]
  case polymod => cases grps <;> simp [Operands.written]
  case cksum => cases pfx <;> cases grps <;> simp [Operands.written]
  case verify => cases pfx <;> cases grps <;> simp [Operands.written]
  case r8to5 => cases bytes <;> simp [Operands.written]
  case r5to8 => cases grps <;> simp [Operands.written]
  case mkver => cases type <;> cases hlen <;> simp [Operands.written]
  case verchk => cases ver <;> cases hlen <;> simp [Operands.written]
  case b32enc => cases grps <;> simp [Operands.written]
  case b32dec => cases bytes <;> simp [Operands.written]
  case encode => cases pfx <;> cases type <;> cases bytes <;> simp [Operands.written]
  case decode => cases bytes <;> simp [Operands.written]

/-- The form `exec_eq` takes when the answer is a next state: a success or an error. -/
theorem exec_eq_next (i : Instr) (s t : State) (h : exec i s = .next t) :
    (∃ r, commandOutcome i s.op = some (.ok r) ∧ r.overCapacity = none ∧ t = deliver r s) ∨
      ∃ e, commandOutcome i s.op = some (.error e) ∧ t = raiseError e s := by
  obtain ⟨o, ho, he⟩ | ⟨-, r, -, he⟩ := exec_eq i s
  · rw [he] at h
    obtain ⟨r, rfl, hc, rfl⟩ | ⟨e, rfl, rfl⟩ := (finish_eq_next o s t).mp h
    · exact .inl ⟨r, ho, hc, rfl⟩
    · exact .inr ⟨e, ho, rfl⟩
  · rw [he] at h
    cases h

/-- A command whose outcome is known answers as its end says. -/
theorem exec_of_outcome (i : Instr) (s : State) (o : Except BlockError Results)
    (h : commandOutcome i s.op = some o) : exec i s = finish o s := by
  obtain ⟨o', ho, he⟩ | ⟨hn, -⟩ := exec_eq i s
  · rw [h] at ho
    obtain rfl := Option.some.inj ho
    exact he
  · rw [h] at hn; cases hn

/-- A command whose rule gives results that the buffers hold delivers exactly them (R136). -/
theorem exec_ok (i : Instr) (s : State) (r : Results) (h : commandOutcome i s.op = some (.ok r))
    (hc : r.overCapacity = none) : exec i s = .next { s with res := r, st := 0x80 } := by
  rw [exec_of_outcome i s _ h, finish_ok, complete_fits r s hc]
  rfl

/-- A command whose rule raises an error ends with its code and without a valid result (R134). -/
theorem exec_error (i : Instr) (s : State) (e : BlockError) (h : commandOutcome i s.op = some (.error e)) :
    exec i s = .next { s with res := Results.invalid, st := errorStatus e } := by
  rw [exec_of_outcome i s _ h, finish_error]
  rfl

/-- What one step can do: stand still, or perform the oldest host action. -/
theorem step_eq (s : State) :
    (s.script = [] ∧ step s = .next s) ∨
      ∃ a rest, s.script = a :: rest ∧ step s = perform a (s.withScript rest) := by
  unfold step
  cases h : s.script with
  | nil => exact .inl ⟨rfl, rfl⟩
  | cons a rest => exact .inr ⟨a, rest, rfl, rfl⟩

end Sys2Proof.Machine
end

