-- ==== Sys2Proof/Laws/Checksum.lean ====
section
/-! SUPPORT. The checksum engine: lengths, the recurrence over an append, its linearity, and the tail law (40_checksum.md
R70 law 1). -/

namespace Sys2Proof.Machine

/-! ### Sequences -/

@[simp] theorem expand_length (p : List Byte) : (expand p).length = p.length := by simp [expand]

@[simp] theorem explode_length (v : Acc) : (explode v).length = 8 := by simp [explode]

theorem polymod_append (G : Generators) (x y : List Group) :
    polymod G (x ++ y) = y.foldl (polymodStep G) (polymod G x) := by simp [polymod]

theorem ckInput_append (p : List Byte) (g e : List Group) : ckInput p (g ++ e) = ckInput p g ++ e := by
  simp [ckInput]

/-! ### The exclusive-ors of one step -/

/-- The constants a step adds do not depend on what they are added to. -/
theorem applyGenerators_eq_xor (G : Generators) (c0 : BitVec 5) (c : Acc) :
    applyGenerators G c0 c = c ^^^ applyGenerators G c0 0 := by
  have key : ∀ (l : List (Fin 5)) (a b : Acc),
      l.foldl (fun a i => if c0.getLsbD i.val then a ^^^ G i else a) (a ^^^ b) =
        a ^^^ l.foldl (fun a i => if c0.getLsbD i.val then a ^^^ G i else a) b := by
    intro l
    induction l with
    | nil => intro a b; rfl
    | cons i l ih =>
      intro a b
      simp only [List.foldl_cons]
      split
      · rw [BitVec.xor_assoc, ih]
      · exact ih a b
  have := key [0, 1, 2, 3, 4] c 0
  rwa [BitVec.ofNat_eq_ofNat, BitVec.xor_zero] at this

/-- The constants selected by two words together are those selected by each. -/
theorem applyGenerators_xor (G : Generators) (a b : BitVec 5) :
    applyGenerators G (a ^^^ b) 0 = applyGenerators G a 0 ^^^ applyGenerators G b 0 := by
  have key : ∀ (l : List (Fin 5)) (u v : Acc),
      l.foldl (fun w i => if (a ^^^ b).getLsbD i.val then w ^^^ G i else w) (u ^^^ v) =
        l.foldl (fun w i => if a.getLsbD i.val then w ^^^ G i else w) u ^^^
          l.foldl (fun w i => if b.getLsbD i.val then w ^^^ G i else w) v := by
    intro l
    induction l with
    | nil => intro u v; rfl
    | cons i l ih =>
      intro u v
      simp only [List.foldl_cons, BitVec.getLsbD_xor, ← ih]
      congr 1
      cases a.getLsbD i.val <;> cases b.getLsbD i.val <;> simp only [Bool.xor_false, Bool.xor_true, Bool.not_true,
        Bool.not_false, if_true, if_false, Bool.false_eq_true]
      · rw [BitVec.xor_assoc]
      · rw [BitVec.xor_assoc, BitVec.xor_comm v, BitVec.xor_assoc]
      · rw [BitVec.xor_assoc u (G i), ← BitVec.xor_assoc (G i) v, BitVec.xor_comm (G i) v, BitVec.xor_assoc v,
          BitVec.xor_self, BitVec.xor_zero]
  have := key [0, 1, 2, 3, 4] 0 0
  rwa [BitVec.ofNat_eq_ofNat, BitVec.xor_self] at this

/-- The element of a step enters only the low five bits, which the shift has cleared. -/
theorem polymodStep_eq_xor (G : Generators) (c : Acc) (d : Group) :
    polymodStep G c d = polymodStep G c 0 ^^^ d.setWidth 40 := by
  have hor : (((c &&& 0x07FFFFFFFF#40) <<< 5) ||| d.setWidth 40) =
      ((c &&& 0x07FFFFFFFF#40) <<< 5) ^^^ d.setWidth 40 := by
    apply BitVec.eq_of_getLsbD_eq
    intro i hi
    simp only [BitVec.getLsbD_or, BitVec.getLsbD_xor, BitVec.getLsbD_shiftLeft, BitVec.getLsbD_setWidth]
    by_cases h : i < 5
    · simp [h]
    · simp [h, BitVec.getLsbD_of_ge d i (by omega)]
  unfold polymodStep
  rw [applyGenerators_eq_xor, hor, applyGenerators_eq_xor G _ (_ ||| BitVec.setWidth 40 0)]
  simp only [BitVec.ofNat_eq_ofNat, BitVec.setWidth_zero, BitVec.or_zero, BitVec.xor_assoc]
  congr 1
  exact BitVec.xor_comm _ _

/-- A step without its element is linear in the accumulator. -/
theorem polymodStep_zero_xor (G : Generators) (a b : Acc) :
    polymodStep G (a ^^^ b) 0 = polymodStep G a 0 ^^^ polymodStep G b 0 := by
  have hc0 : ((a ^^^ b) >>> 35).setWidth 5 = (a >>> 35).setWidth 5 ^^^ (b >>> 35).setWidth 5 := by
    simp [BitVec.ushiftRight_xor_distrib, BitVec.setWidth_xor]
  have hsh : (((a ^^^ b) &&& 0x07FFFFFFFF#40) <<< 5) =
      ((a &&& 0x07FFFFFFFF#40) <<< 5) ^^^ ((b &&& 0x07FFFFFFFF#40) <<< 5) := by
    rw [← BitVec.shiftLeft_xor_distrib]
    congr 1
    apply BitVec.eq_of_getLsbD_eq
    intro i hi
    simp only [BitVec.getLsbD_and, BitVec.getLsbD_xor, Bool.and_xor_distrib_right]
  unfold polymodStep
  rw [applyGenerators_eq_xor, applyGenerators_eq_xor G ((a >>> 35).setWidth 5), applyGenerators_eq_xor G ((b >>> 35).setWidth 5),
    hc0, hsh, applyGenerators_xor]
  simp only [BitVec.ofNat_eq_ofNat, BitVec.setWidth_zero, BitVec.or_zero]
  ac_rfl

/-- The recurrence from a sum of two accumulators: one of them carries the elements, the other runs over zeros. -/
theorem foldl_polymodStep_xor (G : Generators) (e : List Group) (a b : Acc) :
    e.foldl (polymodStep G) (a ^^^ b) =
      (List.replicate e.length 0).foldl (polymodStep G) a ^^^ e.foldl (polymodStep G) b := by
  induction e generalizing a b with
  | nil => rfl
  | cons d e ih =>
    simp only [List.length_cons, List.replicate_succ, List.foldl_cons]
    rw [polymodStep_eq_xor, polymodStep_zero_xor, BitVec.xor_assoc, ← polymodStep_eq_xor, ih]

/-! ### No step loses a difference (R66) -/

/-- Under `LowFiveIndependent` only the accumulator 0 is taken to 0. -/
theorem polymodStep_eq_zero (G : Generators) (hG : LowFiveIndependent G) (c : Acc)
    (hc : polymodStep G c 0 = 0) : c = 0 := by
  have hlow : (polymodStep G c 0).setWidth 5 = (applyGenerators G ((c >>> 35).setWidth 5) 0).setWidth 5 := by
    unfold polymodStep
    rw [applyGenerators_eq_xor]
    apply BitVec.eq_of_getLsbD_eq
    intro i hi
    simp [hi]
  have h0 : (c >>> 35).setWidth 5 = (0 : BitVec 5) := by
    refine Decidable.byContradiction fun h0 => hG _ h0 ?_
    rw [← hlow, hc]
    rfl
  have hz : applyGenerators G 0 0 = 0 := by simp [applyGenerators]
  unfold polymodStep at hc
  rw [h0, applyGenerators_eq_xor, hz] at hc
  simp only [BitVec.ofNat_eq_ofNat, BitVec.xor_zero, BitVec.setWidth_zero, BitVec.or_zero] at hc
  apply BitVec.eq_of_getLsbD_eq
  intro i hi
  by_cases hi' : i < 35
  · have hm : (0x07FFFFFFFF#40).getLsbD i = true := by revert i; decide
    have := congrArg (fun v : Acc => v.getLsbD (i + 5)) hc
    simp only [BitVec.getLsbD_shiftLeft, BitVec.getLsbD_and, BitVec.getLsbD_zero, Nat.add_sub_cancel, hm,
      Bool.and_true] at this
    simpa [show i + 5 < 40 by omega] using this
  · have := congrArg (fun v : BitVec 5 => v.getLsbD (i - 35)) h0
    simpa [show i - 35 < 5 by omega, show 35 + (i - 35) = i by omega] using this

/-- Under `LowFiveIndependent` a step keeps different accumulators different. -/
theorem polymodStep_acc_injective (G : Generators) (hG : LowFiveIndependent G) (a b : Acc) (d : Group)
    (h : polymodStep G a d = polymodStep G b d) : a = b := by
  have : polymodStep G (a ^^^ b) 0 = 0 := by
    rw [polymodStep_zero_xor]
    rw [polymodStep_eq_xor, polymodStep_eq_xor G b] at h
    have := congrArg (fun v => v ^^^ d.setWidth 40) h
    simp only [BitVec.xor_assoc, BitVec.xor_self, BitVec.xor_zero] at this
    rw [this, BitVec.xor_self]
    rfl
  exact BitVec.xor_eq_zero_iff.mp (polymodStep_eq_zero G hG _ this)

/-- A step keeps different elements different, whatever the constants. -/
theorem polymodStep_group_injective (G : Generators) (c : Acc) (d d' : Group)
    (h : polymodStep G c d = polymodStep G c d') : d = d' := by
  rw [polymodStep_eq_xor, polymodStep_eq_xor G c d'] at h
  have := congrArg (fun v => (polymodStep G c 0 ^^^ v).setWidth 5) h
  simpa [← BitVec.xor_assoc] using this

/-! ### The tail law -/

theorem implode_append (e : List Group) (d : Group) : implode (e ++ [d]) = (implode e <<< 5) ||| d.setWidth 40 := by
  simp [implode]

/-- At most seven elements leave the top five bits clear. -/
theorem implode_ushiftRight (e : List Group) (h : e.length ≤ 7) : (implode e) >>> (5 * e.length) = 0 := by
  induction e using List.reverseRecOn with
  | nil => simp [implode]
  | append_singleton e d ih =>
    rw [List.length_append] at h ⊢
    have ih := ih (by simp at h; omega)
    rw [implode_append]
    apply BitVec.eq_of_getLsbD_eq
    intro i hi
    have := congrArg (fun v : Acc => v.getLsbD i) ih
    simp only [BitVec.ofNat_eq_ofNat, BitVec.getLsbD_ushiftRight, BitVec.getLsbD_zero] at this
    simp only [BitVec.ofNat_eq_ofNat, BitVec.getLsbD_ushiftRight, BitVec.getLsbD_or, BitVec.getLsbD_shiftLeft,
      BitVec.getLsbD_setWidth, List.length_singleton, BitVec.getLsbD_zero]
    rw [show 5 * (e.length + 1) + i - 5 = 5 * e.length + i by omega, this,
      BitVec.getLsbD_of_ge d _ (by omega)]
    simp

/-- From an empty accumulator, up to eight elements are laid side by side: none reaches the constants. -/
theorem foldl_polymodStep_zero (G : Generators) (e : List Group) (h : e.length ≤ 8) :
    e.foldl (polymodStep G) 0 = implode e := by
  induction e using List.reverseRecOn with
  | nil => rfl
  | append_singleton e d ih =>
    simp only [List.length_append, List.length_singleton] at h
    rw [List.foldl_append, ih (by omega), implode_append]
    have htop : (implode e) >>> 35 = 0 := by
      have h5 := implode_ushiftRight e (by omega)
      apply BitVec.eq_of_getLsbD_eq
      intro i hi
      have := congrArg (fun v : Acc => v.getLsbD (35 - 5 * e.length + i)) h5
      simp only [BitVec.ofNat_eq_ofNat, BitVec.getLsbD_ushiftRight, BitVec.getLsbD_zero] at this ⊢
      rwa [show 5 * e.length + (35 - 5 * e.length + i) = 35 + i by omega] at this
    have hmask : implode e &&& 0x07FFFFFFFF#40 = implode e := by
      apply BitVec.eq_of_getLsbD_eq
      intro i hi
      rw [BitVec.getLsbD_and]
      by_cases hi' : i < 35
      · have : (0x07FFFFFFFF#40).getLsbD i = true := by revert i; decide
        simp [this]
      · have := congrArg (fun v : Acc => v.getLsbD (i - 35)) htop
        simp only [BitVec.ofNat_eq_ofNat, BitVec.getLsbD_ushiftRight, BitVec.getLsbD_zero] at this
        rw [show 35 + (i - 35) = i by omega] at this
        simp [this]
    simp only [List.foldl_cons, List.foldl_nil, polymodStep, htop, hmask]
    simp [applyGenerators]

/-- R70 law 1: a tail of eight elements adds exactly itself to the accumulator over eight zeros. -/
theorem polymod_append_eight (G : Generators) (x e : List Group) (h : e.length = 8) :
    polymod G (x ++ e) = polymod G (x ++ List.replicate 8 0) ^^^ implode e := by
  have := foldl_polymodStep_xor G e (polymod G x) 0
  rw [BitVec.ofNat_eq_ofNat, BitVec.xor_zero, ← BitVec.ofNat_eq_ofNat, h, foldl_polymodStep_zero G e (by omega)] at this
  rw [polymod_append, polymod_append, this]

/-- R70 law 1, under the name the tables of claims give it. -/
theorem tail_is_linear (G : Generators) : TailIsLinear G := polymod_append_eight G

/-- The eight groups of a word make the word again. -/
theorem implode_explode (v : Acc) : implode (explode v) = v := by
  apply BitVec.eq_of_getLsbD_eq
  intro i hi
  have h8 : List.range 8 = [0, 1, 2, 3, 4, 5, 6, 7] := by decide
  simp only [explode, implode, h8, List.map_cons, List.map_nil, List.foldl_cons, List.foldl_nil,
    BitVec.getLsbD_or, BitVec.getLsbD_shiftLeft, BitVec.getLsbD_setWidth, BitVec.getLsbD_ushiftRight]
  have : i = 0 ∨ i = 1 ∨ i = 2 ∨ i = 3 ∨ i = 4 ∨ i = 5 ∨ i = 6 ∨ i = 7 ∨ i = 8 ∨ i = 9 ∨ i = 10 ∨ i = 11 ∨ i = 12 ∨
    i = 13 ∨ i = 14 ∨ i = 15 ∨ i = 16 ∨ i = 17 ∨ i = 18 ∨ i = 19 ∨ i = 20 ∨ i = 21 ∨ i = 22 ∨ i = 23 ∨ i = 24 ∨ i = 25 ∨
    i = 26 ∨ i = 27 ∨ i = 28 ∨ i = 29 ∨ i = 30 ∨ i = 31 ∨ i = 32 ∨ i = 33 ∨ i = 34 ∨ i = 35 ∨ i = 36 ∨ i = 37 ∨ i = 38 ∨
    i = 39 := by omega
  rcases this with rfl | rfl | rfl | rfl | rfl | rfl | rfl | rfl | rfl | rfl | rfl | rfl | rfl | rfl | rfl | rfl | rfl |
    rfl | rfl | rfl | rfl | rfl | rfl | rfl | rfl | rfl | rfl | rfl | rfl | rfl | rfl | rfl | rfl | rfl | rfl | rfl |
    rfl | rfl | rfl | rfl <;> simp

end Sys2Proof.Machine
end

