-- ==== Sys2Proof/Laws/Regroup.lean ====
section
/-! SUPPORT. The repackagers: bit streams as numbers, cutting a stream into groups, and what `regroup` answers in terms
of streams (41_regroup.md R80). -/

namespace Sys2Proof.Machine

/-! ### Digits and numbers -/

theorem foldl_digits (bs : List Bool) (n : Nat) :
    bs.foldl (fun n b => 2 * n + b.toNat) n = n * 2 ^ bs.length + digitsToNat bs := by
  induction bs generalizing n with
  | nil => simp [digitsToNat]
  | cons b bs ih =>
    simp only [digitsToNat, List.foldl_cons, List.length_cons, Nat.mul_zero, Nat.zero_add]
    rw [ih, ih b.toNat, Nat.pow_succ]
    ring

@[simp] theorem digitsToNat_nil : digitsToNat [] = 0 := rfl

theorem digitsToNat_append (a b : List Bool) :
    digitsToNat (a ++ b) = digitsToNat a * 2 ^ b.length + digitsToNat b := by
  conv_lhs => rw [digitsToNat, List.foldl_append]
  exact foldl_digits b _

theorem digitsToNat_cons (b : Bool) (bs : List Bool) :
    digitsToNat (b :: bs) = b.toNat * 2 ^ bs.length + digitsToNat bs := by
  have := digitsToNat_append [b] bs
  simpa [digitsToNat] using this

theorem digitsToNat_lt (bs : List Bool) : digitsToNat bs < 2 ^ bs.length := by
  induction bs with
  | nil => simp
  | cons b bs ih =>
    rw [digitsToNat_cons, List.length_cons, Nat.pow_succ]
    have := b.toNat_le
    nlinarith

@[simp] theorem digitsToNat_replicate_false (n : Nat) : digitsToNat (List.replicate n false) = 0 := by
  induction n with
  | zero => rfl
  | succ n ih => rw [List.replicate_succ, digitsToNat_cons, ih]; simp

theorem digitsToNat_eq_zero (bs : List Bool) : digitsToNat bs = 0 ↔ bs.any id = false := by
  induction bs with
  | nil => simp
  | cons b bs ih =>
    rw [digitsToNat_cons]
    cases b <;> simp_all

theorem digitsToNat_injective (a b : List Bool) (hl : a.length = b.length) (h : digitsToNat a = digitsToNat b) :
    a = b := by
  induction a generalizing b with
  | nil => exact (List.length_eq_zero_iff.mp hl.symm).symm
  | cons x a ih =>
    cases b with
    | nil => simp at hl
    | cons y b =>
      have hl' : a.length = b.length := by simpa using hl
      rw [digitsToNat_cons, digitsToNat_cons, ← hl'] at h
      have ha := digitsToNat_lt a
      have hb := digitsToNat_lt b
      rw [← hl'] at hb
      have hxy : x = y := by
        cases x <;> cases y <;> simp at h ⊢ <;> omega
      subst hxy
      rw [ih b hl' (by omega)]

/-! ### The bits of one element and of a sequence -/

@[simp] theorem msbFirst_length {w : Nat} (x : BitVec w) : (msbFirst x).length = w := by simp [msbFirst]

theorem digitsToNat_map_range_getLsbD (w n : Nat) (x : BitVec w) (h : n ≤ w) :
    digitsToNat ((List.range n).map fun b => x.getLsbD (n - 1 - b)) = x.toNat % 2 ^ n := by
  induction n with
  | zero => simp [Nat.mod_one]
  | succ n ih =>
    rw [List.range_succ_eq_map, List.map_cons, digitsToNat_cons, List.map_map]
    have hcomp : ((fun b => x.getLsbD (n + 1 - 1 - b)) ∘ Nat.succ) = fun b => x.getLsbD (n - 1 - b) := by
      funext b
      simp only [Function.comp, Nat.succ_eq_add_one]
      congr 1
      omega
    rw [hcomp, ih (by omega)]
    simp only [List.length_map, List.length_range, Nat.add_sub_cancel, Nat.sub_zero, BitVec.getLsbD]
    rw [Nat.mod_pow_succ, Nat.testBit_eq_decide_div_mod_eq, Nat.mul_comm]
    rcases Nat.mod_two_eq_zero_or_one (x.toNat / 2 ^ n) with h2 | h2 <;> simp [h2, Nat.add_comm]

@[simp] theorem digitsToNat_msbFirst {w : Nat} (x : BitVec w) : digitsToNat (msbFirst x) = x.toNat := by
  rw [msbFirst, digitsToNat_map_range_getLsbD w w x le_rfl, Nat.mod_eq_of_lt x.isLt]

@[simp] theorem bitStream_nil {w : Nat} : bitStream ([] : List (BitVec w)) = [] := rfl

@[simp] theorem bitStream_cons {w : Nat} (x : BitVec w) (xs : List (BitVec w)) :
    bitStream (x :: xs) = msbFirst x ++ bitStream xs := by simp [bitStream]

@[simp] theorem bitStream_append {w : Nat} (xs ys : List (BitVec w)) :
    bitStream (xs ++ ys) = bitStream xs ++ bitStream ys := by simp [bitStream]

@[simp] theorem bitStream_length {w : Nat} (xs : List (BitVec w)) : (bitStream xs).length = w * xs.length := by
  induction xs with
  | nil => simp
  | cons x xs ih => simp [ih, Nat.mul_add, Nat.add_comm]

theorem natOf_append {w : Nat} (xs ys : List (BitVec w)) :
    natOf (xs ++ ys) = ys.foldl (fun n x => n * 2 ^ w + x.toNat) (natOf xs) := by simp [natOf]

/-- The stream read as one number is the sequence read as one number. -/
@[simp] theorem digitsToNat_bitStream {w : Nat} (xs : List (BitVec w)) : digitsToNat (bitStream xs) = natOf xs := by
  induction xs using List.reverseRecOn with
  | nil => rfl
  | append_singleton xs x ih => rw [bitStream_append, digitsToNat_append, ih, natOf_append]; simp

/-- A stream determines its sequence. -/
theorem bitStream_injective {w : Nat} (xs ys : List (BitVec w)) (hl : xs.length = ys.length)
    (h : bitStream xs = bitStream ys) : xs = ys := by
  induction xs generalizing ys with
  | nil => exact (List.length_eq_zero_iff.mp hl.symm).symm
  | cons x xs ih =>
    cases ys with
    | nil => simp at hl
    | cons y ys =>
      simp only [bitStream_cons] at h
      obtain ⟨hx, hxs⟩ := List.append_inj h (by simp)
      have : x = y := by
        apply BitVec.eq_of_toNat_eq
        rw [← digitsToNat_msbFirst x, ← digitsToNat_msbFirst y, hx]
      rw [this, ih ys (by simpa using hl) hxs]

/-- The digits of a group made from at most `tw` digits. -/
theorem ofDigits_toNat (tw : Nat) (bs : List Bool) (h : bs.length ≤ tw) : (ofDigits tw bs).toNat = digitsToNat bs := by
  rw [ofDigits, BitVec.toNat_ofNat, Nat.mod_eq_of_lt]
  exact lt_of_lt_of_le (digitsToNat_lt bs) (Nat.pow_le_pow_right (by omega) h)

@[simp] theorem msbFirst_ofDigits (tw : Nat) (bs : List Bool) (h : bs.length = tw) : msbFirst (ofDigits tw bs) = bs := by
  apply digitsToNat_injective
  · rw [msbFirst_length, h]
  · rw [digitsToNat_msbFirst, ofDigits_toNat tw bs h.le]

@[simp] theorem ofDigits_msbFirst {w : Nat} (x : BitVec w) : ofDigits w (msbFirst x) = x := by
  apply BitVec.eq_of_toNat_eq
  rw [ofDigits_toNat w _ (by simp), digitsToNat_msbFirst]

/-! ### Cutting a stream into groups -/

theorem fullGroups_short (tw : Nat) (S : List Bool) (h : S.length < tw) : fullGroups tw S = [] := by
  simp [fullGroups, Nat.div_eq_of_lt h]

/-- The first group of a stream long enough for one, then the groups of the rest. -/
theorem fullGroups_append (tw : Nat) (a S : List Bool) (ha : a.length = tw) (h0 : 0 < tw) :
    fullGroups tw (a ++ S) = ofDigits tw a :: fullGroups tw S := by
  unfold fullGroups
  rw [List.length_append, ha, Nat.add_div_left _ h0, List.range_succ_eq_map, List.map_cons, List.map_map]
  congr 1
  · subst ha; simp
  · apply List.map_congr_left
    intro k _
    simp only [Function.comp, Nat.succ_eq_add_one, Nat.add_mul, Nat.one_mul]
    rw [Nat.add_comm (k * tw) tw, ← List.drop_drop, List.drop_append_of_le_length ha.ge,
      List.drop_eq_nil_of_le ha.le, List.nil_append]

@[simp] theorem fullGroups_length (tw : Nat) (S : List Bool) : (fullGroups tw S).length = S.length / tw := by
  simp [fullGroups]

theorem leftover_length (tw : Nat) (S : List Bool) : (leftover tw S).length = S.length % tw := by
  have := Nat.div_add_mod S.length tw
  rw [Nat.mul_comm] at this
  simp only [leftover, List.length_drop]
  omega

/-- Cutting the stream of a sequence of the same width, with a tail too short for a group, gives the sequence and the
tail. -/
theorem fullGroups_bitStream {w : Nat} (xs : List (BitVec w)) (z : List Bool) (h : z.length < w) :
    fullGroups w (bitStream xs ++ z) = xs ∧ leftover w (bitStream xs ++ z) = z := by
  constructor
  · induction xs with
    | nil => simpa using fullGroups_short w z h
    | cons x xs ih =>
      rw [bitStream_cons, List.append_assoc, fullGroups_append w _ _ (by simp) (by omega), ih, ofDigits_msbFirst]
  · have hd : (bitStream xs ++ z).length / w = xs.length := by
      rw [List.length_append, bitStream_length, Nat.mul_add_div (by omega), Nat.div_eq_of_lt h, Nat.add_zero]
    rw [leftover, hd, List.drop_append_of_le_length (by simp [Nat.mul_comm])]
    simp [Nat.mul_comm]

/-- The groups and the leftover of a stream, put together, are the stream. -/
theorem bitStream_fullGroups_append_leftover (tw : Nat) (S : List Bool) (h0 : 0 < tw) :
    bitStream (fullGroups tw S) ++ leftover tw S = S := by
  induction hn : S.length / tw generalizing S with
  | zero =>
    have hlt : S.length < tw := by
      rcases Nat.div_eq_zero_iff.mp hn with h | h
      · omega
      · exact h
    simp [fullGroups_short tw S hlt, leftover, hn]
  | succ n ih =>
    have hge : tw ≤ S.length := by
      by_contra hlt
      rw [Nat.div_eq_of_lt (by omega)] at hn
      cases hn
    have hd : (S.drop tw).length / tw = n := by
      have := Nat.sub_mul_div S.length tw 1
      rw [List.length_drop]
      rw [Nat.mul_one, hn] at this
      exact this
    have hl : leftover tw S = leftover tw (S.drop tw) := by
      rw [leftover, leftover, hn, hd, List.drop_drop]
      congr 1
      ring
    have hS := List.take_append_drop tw S
    have hf := fullGroups_append tw (S.take tw) (S.drop tw) (by simp [hge]) h0
    rw [hS] at hf
    rw [hf, hl, bitStream_cons, msbFirst_ofDigits tw _ (by simp [hge]), List.append_assoc, ih _ hd, hS]

/-! ### What regroup answers -/

/-- With padding there is no error, and the output's stream is the input's, completed with zeros (R80). -/
theorem regroup_pad {fw : Nat} (tw : Nat) (h0 : 0 < tw) (x : List (BitVec fw)) :
    ∃ g : List (BitVec tw), regroup tw true x = .ok g ∧
      ∃ k < tw, bitStream g = bitStream x ++ List.replicate k false := by
  unfold regroup
  have hS := bitStream_fullGroups_append_leftover tw (bitStream x) h0
  have hlt : (leftover tw (bitStream x)).length < tw := by
    rw [leftover_length]; exact Nat.mod_lt _ h0
  by_cases hl : (leftover tw (bitStream x)).length = 0
  · refine ⟨_, by simp [hl]; rfl, 0, h0, ?_⟩
    rw [List.length_eq_zero_iff.mp hl, List.append_nil] at hS
    simp [hS]
  · refine ⟨_, by simp [hl]; rfl, tw - (leftover tw (bitStream x)).length, by omega, ?_⟩
    rw [bitStream_append, bitStream_cons, bitStream_nil, List.append_nil,
      msbFirst_ofDigits _ _ (by simp; omega), ← List.append_assoc, hS]

/-- Without padding: leftover bits that are all zero are dropped (R80). -/
theorem regroup_noPad_ok {fw : Nat} (tw : Nat) (h0 : 0 < tw) (x : List (BitVec fw)) (g : List (BitVec tw)) :
    regroup tw false x = .ok g ↔
      ∃ k < tw, bitStream x = bitStream g ++ List.replicate k false := by
  have hS := bitStream_fullGroups_append_leftover tw (bitStream x) h0
  have hlt : (leftover tw (bitStream x)).length < tw := by
    rw [leftover_length]; exact Nat.mod_lt _ h0
  constructor
  · intro h
    refine ⟨(leftover tw (bitStream x)).length, hlt, ?_⟩
    unfold regroup at h
    have hany : (leftover tw (bitStream x)).any id = false ∧ fullGroups tw (bitStream x) = g := by
      by_cases hl : (leftover tw (bitStream x)).length = 0
      · simp only [hl, if_true, Except.ok.injEq] at h
        rw [List.length_eq_zero_iff.mp hl]
        exact ⟨rfl, h⟩
      · cases ha : (leftover tw (bitStream x)).any id with
        | false => simp [hl, ha] at h; exact ⟨rfl, h⟩
        | true => simp [hl, ha] at h
    obtain ⟨ha, rfl⟩ := hany
    have hz : leftover tw (bitStream x) = List.replicate (leftover tw (bitStream x)).length false :=
      digitsToNat_injective _ _ (by simp) (by simpa using (digitsToNat_eq_zero _).mpr ha)
    rw [← hz, hS]
  · rintro ⟨k, hk, hx⟩
    obtain ⟨hf, hl⟩ := fullGroups_bitStream g (List.replicate k false) (by simpa using hk)
    have ha : (List.replicate k false).any id = false := by simp
    simp only [regroup, hx, hf, hl]
    by_cases h : k = 0 <;> simp [h]

/-- Without padding, an error is `NonZeroPadding` and means a leftover bit of 1 (R80). -/
theorem regroup_noPad_error {fw : Nat} (tw : Nat) (x : List (BitVec fw)) (e : BlockError) :
    (regroup tw false x : Except BlockError (List (BitVec tw))) = .error e ↔
      e = .nonZeroPadding ∧ (leftover tw (bitStream x)).any id = true := by
  unfold regroup
  by_cases hl : (leftover tw (bitStream x)).length = 0
  · simp [List.length_eq_zero_iff.mp hl]
  · cases ha : (leftover tw (bitStream x)).any id with
    | false => simp [hl, ha]
    | true => simp [hl, ha, eq_comm]

/-- The leftover bits read as a number are the low bits of the sequence's number. -/
theorem digitsToNat_leftover {fw : Nat} (tw : Nat) (h0 : 0 < tw) (x : List (BitVec fw)) :
    digitsToNat (leftover tw (bitStream x)) = natOf x % 2 ^ (fw * x.length % tw) := by
  have hS := congrArg digitsToNat (bitStream_fullGroups_append_leftover tw (bitStream x) h0)
  rw [digitsToNat_append, digitsToNat_bitStream x, leftover_length, bitStream_length] at hS
  have hlt := digitsToNat_lt (leftover tw (bitStream x))
  rw [leftover_length, bitStream_length] at hlt
  rw [← hS, Nat.mul_comm _ (2 ^ _), Nat.mul_add_mod, Nat.mod_eq_of_lt hlt]

end Sys2Proof.Machine
end

