-- ==== Sys2Proof/Laws/Codec.lean ====
section
/-! SUPPORT. The tables, the validator, the alphabet mapping, the encoder and the decoder: one lemma per function that
says when it succeeds and with what (42_version_alphabet.md, 43_encode.md, 44_decode.md). -/

namespace Sys2Proof.Machine

/-! ### Length table and version byte (R50, R51, R90, R91) -/

@[simp] theorem scOf_lenOf (sc : BitVec 3) : scOf (lenOf sc) = some sc := by
  revert sc; decide

theorem lenOf_of_scOf {n : Nat} {sc : BitVec 3} (h : scOf n = some sc) : lenOf sc = n := by
  by_cases hn : n < 65
  · revert sc
    have : ∀ m < 65, ∀ sc : BitVec 3, scOf m = some sc → lenOf sc = m := by decide +kernel
    exact fun {sc} h => this n hn sc h
  · exfalso
    unfold scOf at h
    have : lenTable.idxOf? n = none := by
      rw [List.idxOf?_eq_none_iff]
      simp [lenTable]
      omega
    rw [this] at h
    cases h

theorem scOf_eq_none (n : Nat) : scOf n = none ↔ ∀ sc : BitVec 3, n ≠ lenOf sc := by
  constructor
  · rintro h sc rfl
    rw [scOf_lenOf] at h
    cases h
  · intro h
    cases hs : scOf n with
    | none => rfl
    | some sc => exact absurd (lenOf_of_scOf hs).symm (h sc)

theorem lenOf_bounds (sc : BitVec 3) : 20 ≤ lenOf sc ∧ lenOf sc ≤ 64 := by
  revert sc; decide

@[simp] theorem verType_eq (v : Byte) : verType v = v.extractLsb' 3 5 := by
  revert v; decide +kernel

@[simp] theorem verSc_eq (v : Byte) : verSc v = v.extractLsb' 0 3 := by
  revert v; decide +kernel

/-- A built version byte splits into what it was built from, for every type of five bits. -/
theorem version_fields (t : Byte) (sc : BitVec 3) (h : t.toNat ≤ 31) :
    ((t <<< 3) ||| sc.setWidth 8).extractLsb' 3 5 = t.setWidth 5 ∧
      ((t <<< 3) ||| sc.setWidth 8).extractLsb' 0 3 = sc ∧ (t.setWidth 5).toNat = t.toNat := by
  have : ∀ t : Byte, t.toNat ≤ 31 → ∀ sc : BitVec 3, ((t <<< 3) ||| sc.setWidth 8).extractLsb' 3 5 = t.setWidth 5 ∧
      ((t <<< 3) ||| sc.setWidth 8).extractLsb' 0 3 = sc ∧ (t.setWidth 5).toNat = t.toNat := by decide +kernel
  exact this t h sc

theorem makeVersion_ok (typeMax : Nat) (t v : Byte) (n : Nat) :
    makeVersion typeMax t n = .ok v ↔
      ∃ sc, n = lenOf sc ∧ t.toNat ≤ typeMax ∧ v = (t <<< 3) ||| sc.setWidth 8 := by
  unfold makeVersion
  cases hs : scOf n with
  | none => simpa using fun sc hn => absurd hn ((scOf_eq_none n).mp hs sc)
  | some sc =>
    have hn := lenOf_of_scOf hs
    by_cases ht : typeMax < t.toNat
    · simp [ht]
    · simp only [ht, if_false, Except.ok.injEq]
      constructor
      · rintro rfl; exact ⟨sc, hn.symm, by omega, rfl⟩
      · rintro ⟨sc', h', -, rfl⟩
        rw [h', scOf_lenOf] at hs
        rw [Option.some.inj hs]

theorem makeVersion_error (typeMax : Nat) (t : Byte) (n : Nat) (e : BlockError) :
    makeVersion typeMax t n = .error e ↔
      (e = .hashLengthMismatch ∧ ∀ sc, n ≠ lenOf sc) ∨
      (e = .unsupportedVersionType ∧ (∃ sc, n = lenOf sc) ∧ typeMax < t.toNat) := by
  unfold makeVersion
  cases hs : scOf n with
  | none =>
    have := (scOf_eq_none n).mp hs
    simp only [Except.error.injEq]
    constructor
    · rintro rfl; exact .inl ⟨rfl, this⟩
    · rintro (⟨rfl, -⟩ | ⟨-, ⟨sc, hn⟩, -⟩)
      · rfl
      · exact absurd hn (this sc)
  | some sc =>
    have hn := lenOf_of_scOf hs
    have hno : ¬ ∀ sc, n ≠ lenOf sc := fun h => h sc hn.symm
    have hex : ∃ sc, n = lenOf sc := ⟨sc, hn.symm⟩
    by_cases ht : typeMax < t.toNat
    · simp [ht, hno, hex, eq_comm]
    · simp [ht, hno]

@[simp] theorem splitVersion_eq (v : Byte) :
    splitVersion v = ⟨v.extractLsb' 3 5, v.extractLsb' 0 3, lenOf (v.extractLsb' 0 3)⟩ := by
  simp [splitVersion]

theorem checkVersion_eq (v : Byte) (n : Nat) :
    checkVersion v n = if n = lenOf (v.extractLsb' 0 3) then
      .ok ⟨v.extractLsb' 3 5, v.extractLsb' 0 3, lenOf (v.extractLsb' 0 3)⟩ else .error .hashLengthMismatch := by
  simp [checkVersion]

/-! ### Alphabet (R53, R92) -/

@[simp] theorem alphaVal_alphaChar (v : Group) : alphaVal (alphaChar v) = some v := by
  revert v; decide

theorem alphaChar_of_alphaVal {b : Byte} {v : Group} (h : alphaVal b = some v) : alphaChar v = b := by
  have : ∀ b : Byte, (match alphaVal b with | some v => alphaChar v == b | none => true) = true := by decide +kernel
  have := this b
  rw [h] at this
  simpa using this

theorem alphaVal_eq_none (b : Byte) : alphaVal b = none ↔ b ∉ alphabet := by
  simp [alphaVal, List.idxOf?_eq_none_iff]

theorem alphaChar_mem (v : Group) : alphaChar v ∈ alphabet := by
  revert v; decide

theorem isUpper_alphaChar (v : Group) : isUpper (alphaChar v) = false := by
  revert v; decide

@[simp] theorem foldCase_alphaChar (v : Group) : foldCase (alphaChar v) = alphaChar v := by
  simp [foldCase, isUpper_alphaChar]

theorem separator_not_mem_alphabet : separator ∉ alphabet := by decide

theorem foldCase_separator : foldCase separator = separator := by decide

/-- The groups of a text whose characters all have a value. -/
theorem mapM_alphaVal_eq_some (y : List Byte) (g : List Group) :
    y.mapM alphaVal = some g ↔ y = g.map alphaChar := by
  induction y generalizing g with
  | nil => cases g <;> simp
  | cons b y ih =>
    simp only [List.mapM_cons]
    cases hb : alphaVal b with
    | none =>
      simp only [Option.bind_eq_bind, Option.bind_none, reduceCtorEq, false_iff]
      rintro h
      cases g with
      | nil => cases h
      | cons v g =>
        simp only [List.map_cons, List.cons.injEq] at h
        rw [h.1, alphaVal_alphaChar] at hb
        cases hb
    | some v =>
      have hv := alphaChar_of_alphaVal hb
      cases g with
      | nil => cases y.mapM alphaVal <;> simp
      | cons v' g =>
        simp only [List.map_cons, List.cons.injEq, ← hv]
        have hinj : alphaChar v = alphaChar v' ↔ v = v' := by
          constructor
          · intro h
            have := congrArg alphaVal h
            simpa using this
          · rintro rfl; rfl
        rw [hinj, ← ih]
        cases y.mapM alphaVal <;> simp

theorem lookupAll_ok (y : List Byte) (g : List Group) : lookupAll y = .ok g ↔ y = g.map alphaChar := by
  rw [← mapM_alphaVal_eq_some]
  unfold lookupAll
  cases y.mapM alphaVal <;> simp

theorem lookupAll_error (y : List Byte) (e : BlockError) :
    lookupAll y = .error e ↔ e = .invalidAlphabetCharacter ∧ ∃ b ∈ y, b ∉ alphabet := by
  have key : y.mapM alphaVal = none ↔ ∃ b ∈ y, b ∉ alphabet := by
    induction y with
    | nil => simp
    | cons b y ih =>
      simp only [List.mapM_cons, List.mem_cons, exists_eq_or_imp]
      rw [← ih, ← alphaVal_eq_none]
      cases alphaVal b <;> cases y.mapM alphaVal <;> simp
  rw [← key]
  unfold lookupAll
  cases y.mapM alphaVal <;> simp [eq_comm]

theorem mixed_iff (x : List Byte) : (x.any isLower && x.any isUpper) = true ↔ MixedText x := by
  simp [MixedText, isLower, isUpper]

theorem b32Decode_ok (x : List Byte) (g : List Group) : b32Decode x = .ok g ↔ Spells x g := by
  unfold b32Decode Spells
  by_cases h : (x.any isLower && x.any isUpper) = true
  · have := (mixed_iff x).mp h
    simp only [h, if_true]
    simp [this]
  · have : ¬ MixedText x := fun hm => h ((mixed_iff x).mpr hm)
    rw [if_neg h, lookupAll_ok]
    simp [this]

theorem b32Decode_error (x : List Byte) (e : BlockError) :
    b32Decode x = .error e ↔ (e = .mixedCase ∧ MixedText x) ∨
      (e = .invalidAlphabetCharacter ∧ ¬ MixedText x ∧ ∃ b ∈ x, foldCase b ∉ alphabet) := by
  unfold b32Decode
  by_cases h : (x.any isLower && x.any isUpper) = true
  · have := (mixed_iff x).mp h
    rw [if_pos h]
    simp [this, eq_comm]
  · have : ¬ MixedText x := fun hm => h ((mixed_iff x).mpr hm)
    rw [if_neg h, lookupAll_error]
    simp [this]

/-- The text of a group sequence spells it. -/
theorem spells_b32Encode (g : List Group) : Spells (b32Encode g) g := by
  constructor
  · rintro ⟨-, b, hb, hu⟩
    obtain ⟨v, -, rfl⟩ := List.mem_map.mp hb
    have := isUpper_alphaChar v
    simp [isUpper] at this
    omega
  · simp [b32Encode]

/-- A text that spells groups has as many characters, none of them the separator. -/
theorem Spells.length {x : List Byte} {g : List Group} (h : Spells x g) : x.length = g.length := by
  simpa using congrArg List.length h.2

theorem Spells.separator_not_mem {x : List Byte} {g : List Group} (h : Spells x g) : separator ∉ x := by
  intro hm
  have hf : foldCase separator ∈ x.map foldCase := List.mem_map_of_mem hm
  rw [h.2, foldCase_separator] at hf
  obtain ⟨v, -, hv⟩ := List.mem_map.mp hf
  exact separator_not_mem_alphabet (hv ▸ alphaChar_mem v)

/-! ### Prefix check and split (R102, R112, R113) -/

theorem checkPfx_ok (p : List Byte) : checkPfx p = .ok () ↔ ValidPfx p := by
  unfold checkPfx ValidPfx
  by_cases h0 : p.length = 0
  · simp [List.length_eq_zero_iff.mp h0]
  · have hne : p ≠ [] := fun h => h0 (by simp [h])
    by_cases ha : p.any (fun b => !isLower b) = true
    · simp only [h0, ha, if_true, if_false, reduceCtorEq, false_iff]
      rintro ⟨-, hl⟩
      obtain ⟨b, hb, hbad⟩ := List.any_eq_true.mp ha
      have := hl b hb
      simp [isLower] at hbad
      omega
    · simp only [h0, ha, if_false, Bool.false_eq_true, true_iff]
      refine ⟨hne, fun b hb => ?_⟩
      have : isLower b = true := by
        by_contra hbad
        exact ha (List.any_eq_true.mpr ⟨b, hb, by simp [hbad]⟩)
      simpa [isLower] using this

theorem checkPfx_error (p : List Byte) (e : BlockError) :
    checkPfx p = .error e ↔ (e = .emptyPrefix ∧ p = []) ∨
      (e = .invalidPrefixCharacter ∧ p ≠ [] ∧ ∃ b ∈ p, b.toNat < 0x61 ∨ 0x7A < b.toNat) := by
  unfold checkPfx
  by_cases h0 : p.length = 0
  · simp [List.length_eq_zero_iff.mp h0, eq_comm]
  · have hne : p ≠ [] := fun h => h0 (by simp [h])
    have hany : p.any (fun b => !isLower b) = true ↔ ∃ b ∈ p, b.toNat < 0x61 ∨ 0x7A < b.toNat := by
      simp only [List.any_eq_true, isLower, Bool.not_eq_true', decide_eq_false_iff_not]
      constructor
      · rintro ⟨b, hb, h⟩; exact ⟨b, hb, by omega⟩
      · rintro ⟨b, hb, h⟩; exact ⟨b, hb, by omega⟩
    rw [if_neg h0]
    by_cases ha : p.any (fun b => !isLower b) = true
    · have := hany.mp ha
      rw [if_pos ha]
      simp only [Except.error.injEq, hne, ne_eq, not_false_eq_true, and_false, false_or, this, and_true]
      exact eq_comm
    · have : ¬ ∃ b ∈ p, b.toNat < 0x61 ∨ 0x7A < b.toNat := fun h => ha (hany.mpr h)
      rw [if_neg ha]
      simp only [reduceCtorEq, hne, this, and_false, or_false]

theorem ValidPfx.separator_not_mem {p : List Byte} (h : ValidPfx p) : separator ∉ p := by
  intro hm
  have := h.2 _ hm
  simp [separator] at this

/-- A text with one separator splits there. -/
theorem splitAddress_append (p x : List Byte) (hp : separator ∉ p) (hx : separator ∉ x) :
    splitAddress (p ++ separator :: x) = .ok (p, x) := by
  have hi : (p ++ separator :: x).idxOf separator = p.length := by
    rw [List.idxOf_append_of_notMem hp]; simp
  unfold splitAddress
  rw [hi, if_neg (by simp [List.count_append, List.count_eq_zero_of_not_mem hp, List.count_eq_zero_of_not_mem hx])]
  simp

/-- A text that splits has one separator, between the two parts. -/
theorem splitAddress_ok (a p x : List Byte) :
    splitAddress a = .ok (p, x) ↔ a = p ++ separator :: x ∧ separator ∉ p ∧ separator ∉ x := by
  constructor
  · intro h
    have hc : a.count separator = 1 := by
      by_contra hc
      simp [splitAddress, hc] at h
    have hm : separator ∈ a := List.count_pos_iff.mp (by omega)
    obtain ⟨q, y, rfl⟩ := List.append_of_mem hm
    have hq : separator ∉ q := by
      rw [List.count_append, List.count_cons_self] at hc
      exact List.count_eq_zero.mp (by omega)
    have hy : separator ∉ y := by
      rw [List.count_append, List.count_cons_self] at hc
      exact List.count_eq_zero.mp (by omega)
    rw [splitAddress_append q y hq hy] at h
    simp only [Except.ok.injEq, Prod.mk.injEq] at h
    obtain ⟨rfl, rfl⟩ := h
    exact ⟨rfl, hq, hy⟩
  · rintro ⟨rfl, hp, hx⟩
    exact splitAddress_append p x hp hx

theorem splitAddress_error (a : List Byte) (e : BlockError) :
    splitAddress a = .error e ↔ e = .missingSeparator ∧ a.count separator ≠ 1 := by
  unfold splitAddress
  by_cases h : a.count separator = 1 <;> simp [h, eq_comm]

/-! ### Encoder (R100) -/

/-- The encoder succeeds exactly on a valid prefix, a length of the table and a supported type. -/
theorem encodeFn_ok (G : Generators) (typeMax : Nat) (p h text : List Byte) (t : Byte) :
    encodeFn G typeMax p t h = .ok text ↔
      ValidPfx p ∧ ∃ ver g, makeVersion typeMax t h.length = .ok ver ∧ regroup 5 true (ver :: h) = .ok g ∧
        text = assemble G p g := by
  rw [← checkPfx_ok]
  unfold encodeFn
  cases checkPfx p with
  | error e => simp [bind, Except.bind]
  | ok u =>
    cases makeVersion typeMax t h.length with
    | error e => simp [bind, Except.bind]
    | ok ver =>
      cases hr : (regroup 5 true (ver :: h) : Except BlockError (List Group)) with
      | error e => simp [bind, Except.bind, hr]
      | ok g => simp [bind, Except.bind, hr, pure, Except.pure, eq_comm]

/-- The encoder fails as its first failing check says, and in no other way. -/
theorem encodeFn_error (G : Generators) (typeMax : Nat) (p h : List Byte) (t : Byte) (e : BlockError) :
    encodeFn G typeMax p t h = .error e ↔
      checkPfx p = .error e ∨ (checkPfx p = .ok () ∧ makeVersion typeMax t h.length = .error e) := by
  unfold encodeFn
  cases checkPfx p with
  | error e => simp [bind, Except.bind]
  | ok u =>
    cases makeVersion typeMax t h.length with
    | error e => simp [bind, Except.bind]
    | ok ver =>
      obtain ⟨g, hr, -⟩ := regroup_pad 5 (by omega) (ver :: h)
      simp [bind, Except.bind, hr, pure, Except.pure]

/-! ### Decoder (R110) -/

theorem checkPayload_ok (G : Generators) (p : List Byte) (g : List Group) :
    checkPayload G p g = .ok () ↔ 9 ≤ g.length ∧ verifyChecksum G p g = true := by
  unfold checkPayload
  by_cases h9 : g.length < 9
  · simp [h9]
  · have : 9 ≤ g.length := by omega
    cases verifyChecksum G p g <;> simp [h9, this]

theorem checkPayload_error (G : Generators) (p : List Byte) (g : List Group) (e : BlockError) :
    checkPayload G p g = .error e ↔ (e = .payloadTooShort ∧ g.length < 9) ∨
      (e = .checksumMismatch ∧ 9 ≤ g.length ∧ verifyChecksum G p g = false) := by
  unfold checkPayload
  by_cases h9 : g.length < 9
  · have : ¬ 9 ≤ g.length := by omega
    rw [if_pos h9]
    simp only [Except.error.injEq, h9, this, and_true, false_and, and_false, or_false]
    exact eq_comm
  · have : 9 ≤ g.length := by omega
    rw [if_neg h9]
    cases verifyChecksum G p g <;>
      simp only [h9, this, and_false, false_or, and_true, Bool.not_true, Bool.not_false, if_true,
        Bool.false_eq_true, reduceCtorEq, if_false, Except.error.injEq, Bool.true_eq_false]
    exact eq_comm

theorem extractFields_ok (p b : List Byte) (d : Decoded) :
    extractFields p b = .ok d ↔ ∃ v h, b = v :: h ∧ h.length = lenOf (v.extractLsb' 0 3) ∧
      d = ⟨p, v, v.extractLsb' 3 5, v.extractLsb' 0 3, h.length, h⟩ := by
  cases b with
  | nil => simp [extractFields]
  | cons v h =>
    simp only [extractFields, checkVersion_eq, List.cons.injEq]
    by_cases hl : h.length = lenOf (v.extractLsb' 0 3)
    · simp only [hl, if_true, Except.map, Except.ok.injEq]
      constructor
      · rintro rfl; exact ⟨v, h, ⟨rfl, rfl⟩, hl, by rw [hl]⟩
      · rintro ⟨v', h', ⟨rfl, rfl⟩, -, rfl⟩; rw [hl]
    · simp only [hl, if_false, Except.map, reduceCtorEq, false_iff]
      rintro ⟨v', h', ⟨rfl, rfl⟩, hl', -⟩
      exact hl hl'

theorem extractFields_error (p b : List Byte) (e : BlockError) :
    extractFields p b = .error e ↔ e = .hashLengthMismatch ∧
      ∀ v h, b = v :: h → h.length ≠ lenOf (v.extractLsb' 0 3) := by
  cases b with
  | nil => simp [extractFields, eq_comm]
  | cons v h =>
    simp only [extractFields, checkVersion_eq, List.cons.injEq]
    by_cases hl : h.length = lenOf (v.extractLsb' 0 3)
    · simp only [hl, if_true, Except.map, reduceCtorEq, false_iff]
      rintro ⟨-, hn⟩
      exact hn v h ⟨rfl, rfl⟩ hl
    · simp only [hl, if_false, Except.map, Except.error.injEq]
      constructor
      · rintro rfl
        refine ⟨rfl, ?_⟩
        rintro v' h' ⟨rfl, rfl⟩
        exact hl
      · rintro ⟨rfl, -⟩; rfl

/-- What the decoder does after the split. -/
def decodeParts (G : Generators) (p x : List Byte) : Except BlockError Decoded := do
  checkPfx p
  let g ← b32Decode x
  checkPayload G p g
  let b ← regroup 8 false (g.take (g.length - 8))
  extractFields p b

theorem decodeFn_eq (G : Generators) (a : List Byte) :
    decodeFn G a = (splitAddress a).bind fun px => decodeParts G px.1 px.2 := rfl

theorem decodeFn_append (G : Generators) (p x : List Byte) (hp : separator ∉ p) (hx : separator ∉ x) :
    decodeFn G (p ++ separator :: x) = decodeParts G p x := by
  rw [decodeFn_eq, splitAddress_append p x hp hx]; rfl

/-- The decoder after the split, on a valid prefix and a payload that spells groups. -/
theorem decodeParts_spells (G : Generators) (p x : List Byte) (g : List Group) (hp : ValidPfx p) (hx : Spells x g) :
    decodeParts G p x = (checkPayload G p g).bind fun _ =>
      (regroup 8 false (g.take (g.length - 8)) : Except BlockError (List Byte)).bind fun b => extractFields p b := by
  unfold decodeParts
  rw [(checkPfx_ok p).mpr hp, (b32Decode_ok x g).mpr hx]
  rfl

/-- The decoder succeeds exactly when every gate passes (R110). -/
theorem decodeFn_ok (G : Generators) (a : List Byte) (d : Decoded) :
    decodeFn G a = .ok d ↔ ∃ p x g v h, a = p ++ separator :: x ∧ ValidPfx p ∧ Spells x g ∧ 9 ≤ g.length ∧
      verifyChecksum G p g = true ∧ regroup 8 false (g.take (g.length - 8)) = .ok (v :: h) ∧
      h.length = lenOf (v.extractLsb' 0 3) ∧
      d = ⟨p, v, v.extractLsb' 3 5, v.extractLsb' 0 3, h.length, h⟩ := by
  constructor
  · intro hd
    rw [decodeFn_eq] at hd
    cases hs : splitAddress a with
    | error e => rw [hs] at hd; cases hd
    | ok px =>
      obtain ⟨p, x⟩ := px
      rw [hs] at hd
      obtain ⟨rfl, -, -⟩ := (splitAddress_ok a p x).mp hs
      replace hd : decodeParts G p x = .ok d := hd
      have hp : checkPfx p = .ok () := by
        cases hc : checkPfx p with
        | ok u => rfl
        | error e => rw [decodeParts, hc] at hd; cases hd
      have hx : ∃ g, b32Decode x = .ok g := by
        cases hb : b32Decode x with
        | ok g => exact ⟨g, rfl⟩
        | error e => rw [decodeParts, hp, hb] at hd; cases hd
      obtain ⟨g, hg⟩ := hx
      have hsp := (b32Decode_ok x g).mp hg
      rw [decodeParts_spells G p x g ((checkPfx_ok p).mp hp) hsp] at hd
      cases hk : checkPayload G p g with
      | error e => rw [hk] at hd; cases hd
      | ok u =>
        rw [hk] at hd
        obtain ⟨h9, hv⟩ := (checkPayload_ok G p g).mp hk
        cases hr : (regroup 8 false (g.take (g.length - 8)) : Except BlockError (List Byte)) with
        | error e => rw [hr] at hd; cases hd
        | ok b =>
          rw [hr] at hd
          obtain ⟨v, h, rfl, hl, rfl⟩ := (extractFields_ok p b d).mp hd
          exact ⟨p, x, g, v, h, rfl, (checkPfx_ok p).mp hp, hsp, h9, hv, hr, hl, rfl⟩
  · rintro ⟨p, x, g, v, h, rfl, hp, hx, h9, hv, hr, hl, rfl⟩
    rw [decodeFn_append G p x hp.separator_not_mem hx.separator_not_mem, decodeParts_spells G p x g hp hx,
      (checkPayload_ok G p g).mpr ⟨h9, hv⟩, hr]
    exact (extractFields_ok p (v :: h) _).mpr ⟨v, h, rfl, hl, rfl⟩

end Sys2Proof.Machine
end

