-- ==== Sys2Proof/Laws/PerInstr.lean ====
section
/-! SUPPORT. One statement about every command as syntax, one lemma per constructor: the fields of its word are well
formed (30_encoding.md R47), and its byte, split again, has exactly these fields (R45, R46). -/

namespace Sys2Proof.Laws.WordFields

/-- A command's word has legal fields and carries them unchanged. -/
def Statement (i : Instr) : Prop :=
  i.fields.wellFormed = true ∧ Sys2Proof.splitWord (Sys2Proof.encode i) = i.fields

theorem polymod : Statement .polymod := ⟨rfl, rfl⟩

theorem cksum : Statement .cksum := ⟨rfl, rfl⟩

theorem verify : Statement .verify := ⟨rfl, rfl⟩

theorem r8to5 (pad : Bool) : Statement (.r8to5 pad) := by cases pad <;> exact ⟨rfl, rfl⟩

theorem r5to8 (pad : Bool) : Statement (.r5to8 pad) := by cases pad <;> exact ⟨rfl, rfl⟩

theorem mkver : Statement .mkver := ⟨rfl, rfl⟩

theorem verchk : Statement .verchk := ⟨rfl, rfl⟩

theorem b32enc : Statement .b32enc := ⟨rfl, rfl⟩

theorem b32dec : Statement .b32dec := ⟨rfl, rfl⟩

theorem encode : Statement .encode := ⟨rfl, rfl⟩

theorem decode : Statement .decode := ⟨rfl, rfl⟩

end Sys2Proof.Laws.WordFields
end

