-- ==== Sys2Proof/Tests/Slice0.lean ====
section
/-! SUPPORT. Tests: the well-formedness smoke tests, command words written out from 30_encoding.md, small vectors of
95_test_vectors.md, and for every obligation with hypotheses a witness that meets them. -/

namespace Sys2Proof.Tests

open Sys2Proof.Machine

/-! ### Helpers -/

/-- The bytes of an ASCII text. -/
def text (s : String) : List Byte := s.toList.map fun ch => BitVec.ofNat 8 ch.toNat

/-- `G_REF` of 00_scope.md R5, from general knowledge; used in tests only (log entry 11). -/
def gRef : Generators := fun i =>
  ([0x98F2BC8E61#40, 0x79B76D99E2#40, 0xF33E5FB3C4#40, 0xAE2EABE2A8#40, 0x1E4F43E470#40] : List Acc).getD i.val 0

/-- A freshly reset block whose operands are `o`. -/
def withOps (o : Operands) : State := { State.reset with op := o }

def ofGrps (g : List Group) : Operands := { Operands.unwritten with grps := .written g }
def ofBytes (b : List Byte) : Operands := { Operands.unwritten with bytes := .written b }
def ofPfxGrps (p : List Byte) (g : List Group) : Operands := { Operands.unwritten with pfx := .written p, grps := .written g }
def ofTypeHlen (t n : Byte) : Operands := { Operands.unwritten with type := .written t, hlen := .written n }
def ofVerHlen (v n : Byte) : Operands := { Operands.unwritten with ver := .written v, hlen := .written n }
def ofEncode (p : List Byte) (t : Byte) (h : List Byte) : Operands :=
  { Operands.unwritten with pfx := .written p, type := .written t, bytes := .written h }

/-- What one step leaves when the host writes the byte `b` to `CMD` on the operands `o`. -/
def after (o : Operands) (b : Byte) : Option State :=
  match step { withOps o with script := [.command b] } with
  | .next s => some s
  | _       => none

/-- `ST` after that step. -/
def status (o : Operands) (b : Byte) : Option (BitVec 8) := (after o b).map (·.st)

/-! ### Well-formedness and words -/

theorem test_reserved_bits_refused : (CmdFields.mk 1 false 4).rsvOk = false ∧
    (CmdFields.mk 1 false 4).wellFormed = false := by decide

theorem test_unassigned_op_refused : (CmdFields.mk 0 false 12).opOk = false ∧
    (CmdFields.mk 0 false 12).wellFormed = false ∧ (CmdFields.mk 0 false 0).wellFormed = false := by decide

theorem test_pad_not_allowed_refused : (CmdFields.mk 0 true 6).padOk = false ∧
    (CmdFields.mk 0 true 6).wellFormed = false ∧ (CmdFields.mk 0 true 4).wellFormed = true := by decide

/-- The words of R46, bit by bit: `000` `p` `OOOO`. -/
theorem test_words_decode :
    Sys2Proof.decode 0b00000001 = .ok .polymod ∧ Sys2Proof.decode 0b00000010 = .ok .cksum ∧
    Sys2Proof.decode 0b00000011 = .ok .verify ∧ Sys2Proof.decode 0b00000100 = .ok (.r8to5 false) ∧
    Sys2Proof.decode 0b00010100 = .ok (.r8to5 true) ∧ Sys2Proof.decode 0b00000101 = .ok (.r5to8 false) ∧
    Sys2Proof.decode 0b00010101 = .ok (.r5to8 true) ∧ Sys2Proof.decode 0b00000110 = .ok .mkver ∧
    Sys2Proof.decode 0b00000111 = .ok .verchk ∧ Sys2Proof.decode 0b00001000 = .ok .b32enc ∧
    Sys2Proof.decode 0b00001001 = .ok .b32dec ∧ Sys2Proof.decode 0b00001010 = .ok .encode ∧
    Sys2Proof.decode 0b00001011 = .ok .decode := by decide

/-- Vectors I1 to I5: words that are illegal, with the reason. -/
theorem test_words_refused :
    Sys2Proof.decode 0x00 = .error .unassignedOp ∧ Sys2Proof.decode 0x0C = .error .unassignedOp ∧
    Sys2Proof.decode 0x10 = .error .unassignedOp ∧ Sys2Proof.decode 0x11 = .error .padNotAllowed ∧
    Sys2Proof.decode 0x1B = .error .padNotAllowed ∧ Sys2Proof.decode 0x24 = .error .reservedBits ∧
    Sys2Proof.decode 0x8A = .error .reservedBits ∧ Sys2Proof.decode 0xFF = .error .reservedBits := by decide

/-- The match and mask columns of opcode_table.json: `0xEF` for the two repackagers, `0xFF` for the others. -/
theorem test_table_rows : ∀ b : Byte,
    (b &&& 0xEF = 0x04 ↔ Sys2Proof.decode b = .ok (.r8to5 (b.getLsbD 4))) ∧
    (b &&& 0xEF = 0x05 ↔ Sys2Proof.decode b = .ok (.r5to8 (b.getLsbD 4))) ∧
    (b &&& 0xFF = 0x0B ↔ Sys2Proof.decode b = .ok .decode) := by decide

theorem test_table_word : decodeTableWord 8 0x14 = some (.r8to5 true) ∧ decodeTableWord 8 0x0C = none := by decide

/-- The host's first-instruction probe on one word. -/
theorem test_first_instruction : (match step (State.reset.withFetchWord 8 0x0A) with
    | .next s => s.st == 0x81
    | _       => false) = true := by decide

/-! ### Commands, at most two vectors each -/

/-- PM4. -/
theorem test_polymod : (after (ofGrps [1, 2, 3]) 0x01).map (fun s => (s.st, s.res.ck)) =
    some (0x80, some 0x0000008443) := by decide

/-- PM13, with `G_REF`. -/
theorem test_polymod_long : polymod gRef (List.replicate 9 31) = 0xBCB89A62B3 := by decide

/-- CS1, with `G_REF`. -/
theorem test_cksum : computeChecksum gRef (text "bitcoincash") (List.replicate 34 0) = 0x4CEF6869F1 ∧
    explode 0x4CEF6869F1 = [9, 19, 23, 22, 16, 26, 15, 17] := by decide +kernel

/-- CS3: an empty prefix is no error. -/
theorem test_cksum_empty : status (ofPfxGrps [] []) 0x02 = some 0x80 := by decide

/-- Y7. -/
theorem test_verify : (after (ofPfxGrps [] []) 0x03).map (fun s => (s.st, s.res.ck, s.res.flag)) =
    some (0x80, some 0x20, some false) := by decide

/-- Y1, with `G_REF`. -/
theorem test_verify_good : verifyChecksum gRef (text "bitcoincash")
    (List.replicate 34 0 ++ [9, 19, 23, 22, 16, 26, 15, 17]) = true := by decide +kernel

/-- F16. -/
theorem test_r8to5 : (after (ofBytes [0xDE, 0xAD, 0xBE, 0xEF]) 0x14).map (·.res.grps) =
    some (some [27, 26, 22, 27, 29, 27, 24]) := by decide

/-- F17. -/
theorem test_r8to5_leftover : status (ofBytes [0xDE, 0xAD, 0xBE, 0xEF]) 0x04 = some 0x88 := by decide

/-- T18. -/
theorem test_r5to8 : (after (ofGrps [27, 26, 22, 27, 29, 27, 25]) 0x15).map (·.res.bytes) =
    some (some [0xDE, 0xAD, 0xBE, 0xEF, 0x20]) := by decide

/-- T17. -/
theorem test_r5to8_leftover : status (ofGrps [27, 26, 22, 27, 29, 27, 25]) 0x05 = some 0x88 := by decide

/-- M4. -/
theorem test_mkver : (after (ofTypeHlen 1 32) 0x06).map (fun s => (s.res.ver, s.res.type, s.res.sc, s.res.hlen)) =
    some (some 0x0B, some 1, some 3, some 32) := by decide

/-- M14: the length is checked before the type. -/
theorem test_mkver_order : status (ofTypeHlen 32 21) 0x06 = some 0x89 := by decide

/-- H4. -/
theorem test_verchk : (after (ofVerHlen 0xFF 64) 0x07).map (fun s => (s.st, s.res.type, s.res.sc)) =
    some (0x80, some 31, some 7) := by decide

/-- H7. -/
theorem test_verchk_wrong_length : status (ofVerHlen 0x03 20) 0x07 = some 0x89 := by decide

/-- B3. -/
theorem test_b32enc : (after (ofGrps [0, 1, 2, 3, 4, 31]) 0x08).map (·.res.bytes) = some (some (text "qpzryl")) := by
  decide

/-- A3, its first five characters. -/
theorem test_b32dec : (after (ofBytes (text "QPZRY")) 0x09).map (·.res.grps) = some (some [0, 1, 2, 3, 4]) := by
  decide

/-- A7 and A9: case before alphabet. -/
theorem test_b32dec_errors : status (ofBytes (text "qBzry")) 0x09 = some 0x84 ∧
    status (ofBytes (text "qbzry")) 0x09 = some 0x85 := by decide

/-- E6, with `G_REF`. -/
theorem test_encode : encodeFn gRef 31 (text "bchtest") 0
    [0x01, 0x02, 0x03, 0x04, 0x05, 0x06, 0x07, 0x08, 0x09, 0x0A,
     0x0B, 0x0C, 0x0D, 0x0E, 0x0F, 0x10, 0x11, 0x12, 0x13, 0x14] =
    .ok (text "bchtest:qqqsyqcyq5rqwzqfpg9scrgwpugpzysnzs0pajhc3j") := by decide +kernel

/-- E22 and E25. -/
theorem test_encode_errors : status (ofEncode (text "bch1") 0 (List.replicate 20 0)) 0x0A = some 0x82 ∧
    status (ofEncode (text "bitcoincash") 0 (List.replicate 21 0)) 0x0A = some 0x89 := by decide

/-- The address of program P2, with `G_REF`. -/
theorem test_decode : (decodeFn gRef (text "bitcoincash:ppm2qsznhks23z7629mms6s4cwef74vcwvn0h829pq")).map
    (fun d => (d.pfx, d.ver, d.type, d.hlen)) = .ok (text "bitcoincash", 0x08, 1, 20) := by decide +kernel

/-- R133: a text with no separator and mixed case, and `"Bch:Qq"`. -/
theorem test_decode_order : status (ofBytes (text "bchQq")) 0x0B = some 0x83 ∧
    status (ofBytes (text "Bch:Qq")) 0x0B = some 0x82 := by decide

/-- P4's comment: `R5TO8` here 'would be refused by the model: OP.GRPS is unwritten'. -/
theorem test_command_on_unwritten : exec (.r5to8 false) { State.reset with st := 0x8B } =
    .refused (.unwrittenOperand .grps) := rfl

/-- R14, U26: a read of an operand that nothing has written is refused; after `WR OP.VER, 0` it reads as 0. -/
theorem test_read_of_unwritten : perform (.read (.op .ver)) State.reset = .refused (.readUnwrittenOperand .ver) ∧
    perform (.read (.op .ver)) (withOps (ofVerHlen 0 0)) =
      .next { withOps (ofVerHlen 0 0) with hostVar := some (.scalar 0) } := ⟨rfl, rfl⟩

/-! ### Witnesses: states and operands that meet an obligation's hypotheses -/

/-- A payload of any data groups whose checksum verifies under the prefix `a`, whatever the constants. -/
def payload (d : List Group) : List Group := d ++ explode (computeChecksum Config.generator [0x61] d)

theorem payload_verifies (d : List Group) : Verifies [0x61] (payload d) := by
  have h := polymod_append_eight Config.generator (ckInput [0x61] d) (explode (computeChecksum Config.generator [0x61] d))
    (by simp)
  rw [implode_explode] at h
  rw [Verifies, ← ckInput, payload, ckInput_append, h, computeChecksum]
  simp

theorem payload_length (d : List Group) : (payload d).length = d.length + 8 := by simp [payload]

theorem payload_take (d : List Group) : (payload d).take ((payload d).length - 8) = d := by
  rw [payload_length]; simp [payload]

theorem a_valid : ValidPfx [0x61] := (checkPfx_ok _).mp (by decide)

theorem twenty_fits : 20 ≤ Config.dataMax := by have := pfxMax_add_le_dataMax; omega

/-- What the storage of the buffers holds at reset is within capacity. -/
theorem reset_op_fits : State.reset.op.pfx.value.length ≤ Config.pfxMax ∧
    State.reset.op.bytes.value.length ≤ Config.dataMax ∧ State.reset.op.grps.value.length ≤ Config.dataMax :=
  ⟨List.length_take_le _ _, List.length_take_le _ _, List.length_take_le _ _⟩

theorem empty_command (i : Instr) (r : Results) (o : Operands) (h : commandOutcome i o = some (.ok r))
    (hc : r.overCapacity = none) : ∃ t, exec i (withOps o) = .next t ∧ t.st = 0x80 :=
  ⟨_, exec_ok i _ r h hc, rfl⟩

/-- Every command answers a next state somewhere: hypotheses of the form 'exec answers next' are met. -/
theorem witness_exec_next : ∃ t, exec .polymod (withOps (ofGrps [])) = .next t ∧ t.st = 0x80 :=
  empty_command _ _ _ rfl rfl

/-- The other way a command ends: an error. -/
theorem witness_exec_error : ∃ t, exec .encode (withOps (ofEncode [] 0 [])) = .next t ∧ t.st = 0x81 :=
  ⟨_, exec_error .encode _ .emptyPrefix rfl, by decide⟩

/-- ResetLeavesNothingWrittenOrValid, CommandEndsInOneOfTwoWays, ErrorCodesAreTheTable, RepeatedCommandLeavesTheSameState,
ResetIsNotNeededBetweenCommands (a state whose status is not the reset one), DirectionOfRegisterAccess. -/
theorem witness_freshly_reset : ∃ t, exec .polymod { State.reset with op := ofGrps [] } = .next t := by
  obtain ⟨t, h, -⟩ := witness_exec_next
  exact ⟨t, h⟩

/-- ErrorCodesAreTheTable: a legal and an illegal byte that answer a next state, and a safe state. -/
theorem witness_error_codes : (∃ t, runCommand 0x01 (withOps (ofGrps [])) = .next t) ∧
    (∃ t, runCommand 0xFF State.reset = .next t) ∧ State.reset.Inv := by
  refine ⟨⟨_, rfl⟩, ⟨_, rfl⟩, reset_op_fits.1, reset_op_fits.2.1, reset_op_fits.2.2, ?_, ?_, ?_, .inl rfl, fun _ => rfl,
    ?_, ?_, ?_, ?_, ?_⟩ <;> simp [State.reset, Results.invalid]

/-- StepRunsTheDecodedCommand: a pending legal byte; and a state with nothing pending. -/
theorem witness_step : { State.reset with script := [.command 0x01] }.script = .command 0x01 :: [] ∧
    Sys2Proof.decode 0x01 = .ok .polymod ∧ State.reset.script = [] := by decide

/-- DecodeAndEncodeAgree, IllegalWordRaisesIllegalCommand: a legal byte, and each ground of refusal. -/
theorem witness_bytes : Sys2Proof.decode 0x0B = .ok .decode ∧ Sys2Proof.decode 0x20 = .error .reservedBits ∧
    Sys2Proof.decode 0x0F = .error .unassignedOp ∧ Sys2Proof.decode 0x1B = .error .padNotAllowed := by decide

/-- HostWriteStoresTheWholeValue, ResultOverflowsInExactlyTwoCases: a value that just fits and one unit more. -/
theorem witness_capacity : (List.replicate Config.pfxMax (0 : Byte)).length ≤ Config.pfxMax ∧
    Config.pfxMax < (List.replicate (Config.pfxMax + 1) (0 : Byte)).length ∧
    Config.dataMax < (List.replicate (Config.dataMax + 1) (0 : Group)).length := by simp

/-- HostReadIsPureAndDeclinesWhatHoldsNoValue, UnwrittenOperandRefusesTheCommand: registers with and without a value. -/
theorem witness_validity : State.reset.res.isValid .flag = false ∧
    ({ Results.invalid with flag := some true }).isValid .flag = true ∧ State.reset.op.written .ver = false ∧
    (ofGrps []).written .grps = true ∧ (∀ r ∈ readSet .polymod, (ofGrps []).written r = true) ∧
    OpReg.grps ∈ readSet .polymod ∧ State.reset.op.written .grps = false := by decide

theorem witness_read : ∃ t, perform (.read .st) State.reset = .next t := ⟨_, rfl⟩

/-- DirectionOfRegisterAccess: a host write that answers a next state, another register, an unwritten one. -/
theorem witness_write : (∃ t, perform (.write .ver (.scalar 255)) State.reset = .next t) ∧ OpReg.type ≠ .ver ∧
    State.reset.op.written .type = false := ⟨⟨_, rfl⟩, by decide, by decide⟩

/-- HostReadIsPureAndDeclinesWhatHoldsNoValue, CopyPairMovesAResultToAnOperand: every register with a value, and a pair
pending. -/
def copyState (dst : OpReg) (src : ResReg) : State :=
  { State.reset with
    op := { pfx := .written [0x61], bytes := .written [1], grps := .written [31], type := .written 255, ver := .written 0,
            hlen := .unwritten 20 }
    res := { pfx := some [0x61], bytes := some [1, 2], grps := some [31], ver := some 255, type := some 31, sc := some 7,
             hlen := some 64, ck := some 256, flag := some true }
    script := scriptCp dst src }

/-- The pairs of CopyPairMovesAResultToAnOperand: each kind of value, the greatest number that fits and the least that
does not. -/
theorem witness_copy : (copyState .pfx .bytes).script = scriptCp .pfx .bytes ++ [] ∧
    (copyState .pfx .bytes).res.value .bytes = some (.bytes [1, 2]) ∧
    (copyState .bytes .pfx).res.value .pfx = some (.bytes [0x61]) ∧ [0x61#8].length ≤ Config.pfxMax ∧
    [1#8, 2#8].length ≤ Config.dataMax ∧ (copyState .grps .grps).res.value .grps = some (.groups [31]) ∧
    [31#5].length ≤ Config.dataMax ∧ (copyState .hlen .ver).res.value .ver = some (.scalar (255 : Byte).toNat) ∧
    (copyState .ver .ck).res.value .ck = some (.scalar 256) ∧ OpReg.type ∈ ([.grps, .type, .ver, .hlen] : List OpReg) :=
  ⟨rfl, rfl, rfl, one_le_pfxMax, by have := twenty_fits; simp; omega, rfl, by have := twenty_fits; simp; omega, rfl, rfl,
    by decide⟩

theorem regroup_zero : regroup 5 true ((0 : Byte) :: List.replicate 20 0) = .ok (List.replicate 34 (0 : Group)) := by
  decide +kernel

theorem regroup_zero_back :
    regroup 8 false (List.replicate 34 (0 : Group)) = .ok ((0 : Byte) :: List.replicate 20 0) := by
  decide +kernel

/-- ResultOverflowsInExactlyTwoCases, first case: a full buffer of zero bytes through `R8TO5`. -/
theorem witness_overflow_r8to5 : ∃ g : List Group, regroup 5 true (List.replicate Config.dataMax (0 : Byte)) = .ok g ∧
    (List.replicate Config.dataMax (0 : Byte)).length ≤ Config.dataMax ∧
    Config.dataMax < (8 * (List.replicate Config.dataMax (0 : Byte)).length + 4) / 5 := by
  obtain ⟨g, hg, -⟩ := regroup_pad 5 (by omega) (List.replicate Config.dataMax (0 : Byte))
  have := twenty_fits
  exact ⟨g, hg, by simp, by simp; omega⟩

/-- Its second case: a text of `PFX_MAX + 1` letters, a separator and a verifying payload. -/
theorem witness_overflow_decode : ∃ a d, decodeFn Config.generator a = .ok d ∧ a.length ≤ Config.dataMax ∧
    Config.pfxMax < d.pfx.length ∧ d.pfx.length < a.length := by
  have hp : ValidPfx (List.replicate (Config.pfxMax + 1) 0x61) := by
    refine ⟨by simp, fun b hb => ?_⟩
    rw [(List.mem_replicate.mp hb).2]
    decide
  have hv : verifyChecksum Config.generator (List.replicate (Config.pfxMax + 1) 0x61)
      (List.replicate 34 0 ++ explode (computeChecksum Config.generator (List.replicate (Config.pfxMax + 1) 0x61)
        (List.replicate 34 0))) = true := by
    rw [verifyChecksum, ckInput_append, polymod_append_eight _ _ _ (by simp), implode_explode, computeChecksum]
    simp
  refine ⟨_, _, (decodeFn_ok _ _ _).mpr ⟨_, _, _, 0, List.replicate 20 0, rfl, hp, spells_b32Encode _, ?_, hv, ?_, rfl,
    rfl⟩, ?_, ?_, ?_⟩
  · simp
  · rw [show (List.replicate 34 (0 : Group) ++ explode (computeChecksum Config.generator
      (List.replicate (Config.pfxMax + 1) 0x61) (List.replicate 34 0))).take _ = List.replicate 34 0 by simp]
    exact regroup_zero_back
  · have := pfxMax_add_le_dataMax
    simp [b32Encode]; omega
  · simp
  · simp

/-- ResultDependsOnlyOnOperandsRead: two states that agree on what `POLYMOD` reads and on nothing else. -/
theorem witness_agree : (∀ r ∈ readSet .polymod, (withOps (ofGrps [])).op.value r =
    (withOps { ofGrps [] with ver := .written 7 }).op.value r ∧ (withOps (ofGrps [])).op.written r =
    (withOps { ofGrps [] with ver := .written 7 }).op.written r) ∧
    (ofGrps []).written .ver ≠ ({ ofGrps [] with ver := .written 7 } : Operands).written .ver := by
  refine ⟨fun r hr => ?_, by decide⟩
  obtain rfl : r = .grps := List.mem_singleton.mp hr
  exact ⟨rfl, rfl⟩

/-- UnwrittenOperandRefusesTheCommand, RefusedActionHasNoTransition: a command with one of two operands unwritten, and a
pending command and a pending read of an unwritten operand. -/
theorem witness_unwritten : OpReg.hlen ∈ readSet .verchk ∧
    (withOps { Operands.unwritten with ver := .written 0 }).op.written .hlen = false ∧
    ({ State.reset with script := [.command 0x01] }).script = .command 0x01 :: [] ∧
    Sys2Proof.decode 0x01 = .ok .polymod ∧ OpReg.grps ∈ readSet .polymod ∧ State.reset.op.written .grps = false ∧
    ({ State.reset with script := [.read (.op .ver)] }).script = .read (.op .ver) :: [] ∧
    State.reset.op.written .ver = false := by decide

/-- OnlyWriteAndResetChangeTheMark: a write, a write of the host variable, a reset and a read, each pending and answered. -/
theorem witness_mark : ∀ a ∈ ([.write .ver (.scalar 1), .writeVar .ver, .reset, .read .st] : List HostAction),
    ∃ t, step { State.reset with hostVar := some (.scalar 255), script := [a] } = .next t := by
  intro a ha
  simp only [List.mem_cons, List.not_mem_nil, or_false] at ha
  obtain rfl | rfl | rfl | rfl := ha <;> exact ⟨_, rfl⟩

/-- UnwrittenValueIsNeverSeen: other operands behind the same marks, with an action that answers and one that is refused. -/
theorem witness_never_seen :
    (∀ r : OpReg, ({ ofGrps [1] with ver := .unwritten 7 } : Operands).written r = (withOps (ofGrps [1])).op.written r ∧
      ((withOps (ofGrps [1])).op.written r = true →
        ({ ofGrps [1] with ver := .unwritten 7 } : Operands).value r = (withOps (ofGrps [1])).op.value r)) ∧
    (∃ t, perform (.command 0x01) (withOps (ofGrps [1])) = .next t) ∧
    perform (.read (.op .ver)) (withOps (ofGrps [1])) = .refused (.readUnwrittenOperand .ver) := by
  refine ⟨fun r => ?_, ⟨_, rfl⟩, rfl⟩
  cases r <;> first | exact ⟨rfl, fun _ => rfl⟩ | exact ⟨rfl, nofun⟩

/-- EveryStepKeepsTheStateSafe: a safe state with a pending command that answers a next state. -/
theorem witness_safe : State.Inv { withOps (ofGrps []) with script := [.command 0x01] } ∧
    ∃ t, step { withOps (ofGrps []) with script := [.command 0x01] } = .next t := by
  refine ⟨⟨reset_op_fits.1, reset_op_fits.2.1, by simp [withOps, ofGrps], ?_, ?_, ?_, .inl rfl, fun _ => rfl, ?_, ?_, ?_, ?_,
    ?_⟩, _, rfl⟩ <;> simp [withOps, State.reset, Results.invalid]

/-- ExpandTakesTheLowFiveBits: an index, and both letter ranges at their ends. -/
theorem witness_expand : 0 < (text "z").length ∧ 0 < (expand (text "z")).length ∧
    0x61 ≤ (0x61 : Byte).toNat ∧ (0x7A : Byte).toNat ≤ 0x7A ∧ 0x41 ≤ (0x41 : Byte).toNat ∧
    (0x5A : Byte).toNat ≤ 0x5A ∧ expand [0x5A] = [26] := by decide

/-- PolymodIsTheRecurrence: seven elements, and another order of the constants. -/
theorem witness_polymod : (List.replicate 7 (31 : Group)).length = 7 ∧
    ([4, 3, 2, 1, 0] : List (Fin 5)).Perm [0, 1, 2, 3, 4] := by decide

/-- ExplodeAndImplodeAreInverse, OnlyTheComputedTailVerifies: a tail of eight groups and an index in an exploded one. -/
theorem witness_tail : ([9, 19, 23, 22, 16, 26, 15, 17] : List Group).length = 8 ∧ 7 < (explode 1).length := by decide

/-- OneChangedGroupIsDetected: constants that are independent, and a verifying input with two values for one element. -/
theorem witness_change : LowFiveIndependent gRef ∧ (17 : Group) ≠ 16 ∧
    polymod gRef (expand (text "a") ++ [0] ++ [17, 6, 17, 13, 6, 28, 5] ++ 14 :: []) = 1 := by
  refine ⟨?_, by decide, by decide +kernel⟩
  unfold LowFiveIndependent
  decide +kernel

/-- OneChangedCharacterIsChecksumMismatch: constants that meet R70 law 4, as OneChangedGroupIsDetected says of them. -/
theorem witness_single_error : SingleErrorDetecting gRef := by
  have hfold : ∀ (y : List Group) (a b : Acc), y.foldl (polymodStep gRef) a = y.foldl (polymodStep gRef) b → a = b := by
    intro y
    induction y with
    | nil => exact fun _ _ h => h
    | cons d y ih => exact fun a b h => polymodStep_acc_injective gRef witness_change.1 a b d (ih _ _ h)
  intro p x y d d' hd h
  simp only [verifyChecksum, ckInput_append, polymod_append, List.foldl_cons, beq_iff_eq, beq_eq_false_iff_ne] at h ⊢
  exact fun h' => hd (polymodStep_group_injective gRef _ d d' (hfold y _ _ (h.trans h'.symm)))

/-- OneChangedCharacterIsChecksumMismatch: the address of program P2, its first payload character changed and its last
(vectors DC30 and DC32 change a payload character likewise), each payload of one case. -/
theorem witness_changed_character :
    (∃ d, decodeFn gRef (text "bitcoincash" ++ [0x3A] ++ ([] ++ 0x70 :: text "pm2qsznhks23z7629mms6s4cwef74vcwvn0h829pq")) =
      .ok d) ∧
    (∃ d, decodeFn gRef (text "bitcoincash" ++ [0x3A] ++ (text "ppm2qsznhks23z7629mms6s4cwef74vcwvn0h829p" ++ 0x71 :: [])) =
      .ok d) ∧
    foldCase 0x7A ∈ alphabet ∧ foldCase 0x7A ≠ foldCase 0x70 ∧ foldCase 0x7A ≠ foldCase 0x71 ∧
    ¬ MixedText ([] ++ 0x7A :: text "pm2qsznhks23z7629mms6s4cwef74vcwvn0h829pq") ∧
    ¬ MixedText (text "ppm2qsznhks23z7629mms6s4cwef74vcwvn0h829p" ++ 0x7A :: []) ∧ ([] : List Byte).length < 8 := by
  have hd : ∃ d, decodeFn gRef (text "bitcoincash:ppm2qsznhks23z7629mms6s4cwef74vcwvn0h829pq") = .ok d := by
    cases h : decodeFn gRef (text "bitcoincash:ppm2qsznhks23z7629mms6s4cwef74vcwvn0h829pq") with
    | ok d => exact ⟨d, rfl⟩
    | error e => have := test_decode; rw [h] at this; cases this
  refine ⟨hd, hd, by decide, by decide, by decide, ?_, ?_, by decide⟩
  · rw [← mixed_iff]; decide
  · rw [← mixed_iff]; decide

/-- PolymodDeliversTheRawAccumulator, and `OP.GRPS` for `R5TO8` and `B32ENC`: empty, the example, seven groups. -/
theorem witness_grps : (withOps (ofGrps [])).op.grps = .written [] ∧ (withOps (ofGrps [1, 2, 3])).op.grps = .written [1, 2, 3] ∧
    (withOps (ofGrps (List.replicate 7 31))).op.grps = .written (List.replicate 7 31) ∧
    (List.replicate 7 (31 : Group)).length ≤ 7 := by decide

/-- `OP.BYTES` for `R8TO5`, `B32DEC` and `DECODE`. -/
theorem witness_bytes_operand : (withOps (ofBytes [0x12, 0x34])).op.bytes = .written [0x12, 0x34] := by decide

/-- CksumDeliversTheChecksumAndItsGroups, VerifyDeliversTheFlagAndTheAccumulator: a prefix with groups, and both empty. -/
theorem witness_pfx_grps : (withOps (ofPfxGrps [0x61] [31])).op.pfx = .written [0x61] ∧
    (withOps (ofPfxGrps [0x61] [31])).op.grps = .written [31] ∧ (withOps (ofPfxGrps [] [])).op.pfx = .written [] ∧
    (withOps (ofPfxGrps [] [])).op.grps = .written [] := by decide

/-- RegroupKeepsTheBitStreamAsANumber, R8to5RegroupsBytesIntoGroups: leftover bits zero and not zero, a length that is a
multiple of five. -/
theorem witness_r8to5 : regroup 5 false [(0xF8 : Byte)] = .ok [(31 : Group)] ∧ [(31 : Group)].length ≤ Config.dataMax ∧
    [(0xFF : Byte)].getLast? = some 0xFF ∧ (0xFF : Byte).toNat % 2 ^ (8 * 1 % 5) ≠ 0 ∧
    natOf [(0xF8 : Byte)] % 2 ^ (8 * 1 % 5) = 0 ∧ (List.replicate 5 (0xFF : Byte)).length % 5 = 0 :=
  ⟨by decide, by have := twenty_fits; simp; omega, by decide⟩

/-- R5to8RegroupsGroupsIntoBytes: leftover bits zero and not zero. -/
theorem witness_r5to8 : regroup 8 false [(31 : Group), 28] = .ok [(0xFF : Byte)] ∧
    natOf [(31 : Group), 28] % 2 ^ (5 * 2 % 8) = 0 ∧ natOf [(31 : Group), 29] % 2 ^ (5 * 2 % 8) ≠ 0 ∧
    [(31 : Group), 28].length ≤ Config.dataMax := ⟨by decide, by decide, by decide, by have := twenty_fits; simp; omega⟩

/-- RegroupOutputPrefixDependsOnInputPrefix: a sequence and a longer one that both regroup. -/
theorem witness_regroup_more : regroup 5 true [(0xFF : Byte)] = .ok [(31 : Group), 28] ∧
    regroup 5 false ([(0xFF : Byte)] ++ [0xFF, 0xFF, 0xFF, 0xFF]) = .ok (List.replicate 8 (31 : Group)) ∧
    regroup 8 true [(31 : Group)] = .ok [(0xF8 : Byte)] ∧ regroup 8 false ([(31 : Group)] ++ [28]) = .ok [(0xFF : Byte)] := by
  decide

/-- LengthTableAndItsInverse, SplitVersionUndoesMakeVersion: the last length of the table, the largest type. -/
theorem witness_version : scOf 64 = some 7 ∧ makeVersion 31 31 64 = .ok 0xFF ∧ (31 : Nat) ≤ 31 := by decide

/-- AlphabetIsATableWithAnInverse, B32DecodeUndoesB32Encode. -/
theorem witness_alphabet : alphaVal 0x6C = some 31 ∧ alphaVal 0x62 = none ∧ b32Decode (text "QL") = .ok [0, 31] := by
  decide

/-- MkverBuildsTheVersionByte: the least and the largest supported type, the next one, a length outside the table. -/
theorem witness_mkver : (withOps (ofTypeHlen 0 20)).op.type = .written 0 ∧ (withOps (ofTypeHlen 0 20)).op.hlen = .written 20 ∧
    (20 : Byte).toNat = lenOf 0 ∧ (64 : Byte).toNat = lenOf 7 ∧ (BitVec.ofNat 8 Config.typeMax).toNat ≤ Config.typeMax ∧
    Config.typeMax < (BitVec.ofNat 8 (Config.typeMax + 1)).toNat ∧ (∀ sc : BitVec 3, (21 : Byte).toNat ≠ lenOf sc) := by
  have := typeMax_bounds
  refine ⟨rfl, rfl, rfl, rfl, ?_, ?_, by decide⟩ <;> simp <;> omega

/-- VerchkSplitsAndChecksTheVersionByte: a byte with the length it implies and with another. -/
theorem witness_verchk : (withOps (ofVerHlen 0xFF 64)).op.ver = .written 0xFF ∧
    (withOps (ofVerHlen 0xFF 64)).op.hlen = .written 64 ∧ (64 : Byte).toNat = lenOf ((0xFF : Byte).extractLsb' 0 3) ∧
    (20 : Byte).toNat ≠ lenOf ((0x07 : Byte).extractLsb' 0 3) := by decide

/-- B32encMapsGroupsToCharacters and the copies of a short sequence. -/
theorem witness_b32enc : ([0, 1, 2, 3, 4, 31] : List Group).length ≤ Config.dataMax := by
  have := twenty_fits; simp; omega

/-- B32decChecksCaseThenAlphabet: a text for each clause. -/
theorem witness_b32dec : MixedText (text "qBz") ∧ ¬ MixedText (text "q1") ∧ (∃ b ∈ text "q1", foldCase b ∉ alphabet) ∧
    Spells (text "QL") [0, 31] ∧ ([0, 31] : List Group).length ≤ Config.dataMax ∧
    (∀ b ∈ text "QL", foldCase b ∈ alphabet) := by
  refine ⟨(mixed_iff _).mp (by decide), ?_, by decide, (b32Decode_ok _ _).mp (by decide), ?_, by decide⟩
  · rw [← mixed_iff]; decide
  · have := twenty_fits; simp; omega

/-- EncodeDeliversTheAddressText, DecodeDeliversTheFields, last clauses: an answer of each. -/
theorem witness_encode_decode_end : (∃ t, exec .encode (withOps (ofEncode [] 0 [])) = .next t) ∧
    ∃ t, exec .decode (withOps (ofBytes [])) = .next t :=
  ⟨⟨_, exec_error .encode _ .emptyPrefix rfl⟩, ⟨_, exec_error .decode _ .missingSeparator rfl⟩⟩

/-- EncodeDeliversTheAddressText, EncodeChecksInOrder: operands for success and for each of the four errors. -/
theorem witness_encode : (withOps (ofEncode [0x61] 0 (List.replicate 20 0))).op.pfx = .written [0x61] ∧
    ValidPfx [0x61] ∧ [0x61#8].length ≤ Config.pfxMax ∧ (List.replicate 20 (0 : Byte)).length = lenOf 0 ∧
    (0 : Byte).toNat ≤ Config.typeMax ∧ ([] : List Byte) = [] ∧ ([0x7B] : List Byte) ≠ [] ∧
    (∃ b ∈ [0x7B#8], b.toNat < 0x61 ∨ 0x7A < b.toNat) ∧ (∃ b ∈ [0x60#8], b.toNat < 0x61 ∨ 0x7A < b.toNat) ∧
    (List.replicate 21 (0 : Byte)).length ∉ ([20, 24, 28, 32, 40, 48, 56, 64] : List Nat) ∧
    (List.replicate 64 (0 : Byte)).length ∈ ([20, 24, 28, 32, 40, 48, 56, 64] : List Nat) ∧
    Config.typeMax < (32 : Byte).toNat := by
  have := typeMax_bounds
  exact ⟨rfl, a_valid, one_le_pfxMax, by decide, by simp, rfl, by decide, by decide, by decide, by decide, by decide,
    by simp; omega⟩

/-- The text of prefix `a`, type 0 and twenty zero bytes, for any constants. -/
def zeroText : List Byte := assemble Config.generator [0x61] (List.replicate 34 0)

/-- EncodedTextHasTheStatedShape, EncodedTextDependsOnConstantsOnlyInItsTail, PrimitivesComposeToEncode. -/
theorem witness_encodeFn : encodeFn Config.generator Config.typeMax [0x61] 0 (List.replicate 20 0) = .ok zeroText := by
  refine (encodeFn_ok _ _ _ _ _ _).mpr ⟨a_valid, 0, _, ?_, regroup_zero, rfl⟩
  exact (makeVersion_ok _ _ _ _).mpr ⟨0, by decide, by simp, rfl⟩

theorem zeroText_fits : zeroText.length ≤ Config.dataMax := by
  have := pfxMax_add_le_dataMax
  have := one_le_pfxMax
  simp [zeroText, assemble, b32Encode]; omega

/-- DecodeReturnsWhatEncodeWasGiven: an `ENCODE` that succeeds, and a state that holds its text. -/
theorem witness_encode_then_decode : ∃ t, exec .encode (withOps (ofEncode [0x61] 0 (List.replicate 20 0))) = .next t ∧
    t.st = 0x80 ∧ t.res.bytes = some zeroText ∧ (withOps (ofBytes zeroText)).op.bytes = .written zeroText := by
  refine ⟨_, exec_ok .encode _ { Results.invalid with bytes := some zeroText } ?_ ?_, rfl, rfl, rfl⟩
  · exact congrArg some (congrArg (Except.map _) witness_encodeFn)
  · have := zeroText_fits
    simp [overCapacity_eq_none, Results.invalid]; omega

/-- DecodeDeliversTheFields: a payload that passes every gate. -/
theorem witness_decode : Spells (b32Encode (payload (List.replicate 34 0))) (payload (List.replicate 34 0)) ∧
    9 ≤ (payload (List.replicate 34 0)).length ∧ Verifies [0x61] (payload (List.replicate 34 0)) ∧
    regroup 8 false ((payload (List.replicate 34 0)).take ((payload (List.replicate 34 0)).length - 8)) =
      .ok ((0 : Byte) :: List.replicate 20 0) ∧
    (List.replicate 20 (0 : Byte)).length = lenOf ((0 : Byte).extractLsb' 0 3) := by
  refine ⟨spells_b32Encode _, by simp [payload_length], payload_verifies _, ?_, by decide⟩
  rw [payload_take]
  exact regroup_zero_back

/-- DecodeGateOneSplitsAndChecksThePrefix: no separator, two, and one with an empty and with a bad prefix. -/
theorem witness_gate_one : (text "").count 0x3A ≠ 1 ∧ (text "a::q").count 0x3A ≠ 1 ∧
    text ":q" = [] ++ [0x3A] ++ text "q" ∧ 0x3A ∉ ([] : List Byte) ∧ 0x3A ∉ text "q" ∧
    text "A:q" = text "A" ++ [0x3A] ++ text "q" ∧ text "A" ≠ [] ∧ 0x3A ∉ text "A" ∧
    ∃ b ∈ text "A", b.toNat < 0x61 ∨ 0x7A < b.toNat := by decide

/-- DecodeGatesTwoToFour: a payload for each gate, all after the prefix `a`; eight groups are one too few. -/
theorem witness_gates_two_to_four : MixedText (text "qQ") ∧ 0x3A ∉ text "qQ" ∧ ¬ MixedText (text "b") ∧
    (∃ b ∈ text "b", foldCase b ∉ alphabet) ∧ Spells (text "QQQQQQQQ") (List.replicate 8 0) ∧
    (List.replicate 8 (0 : Group)).length < 9 := by
  refine ⟨(mixed_iff _).mp (by decide), by decide, ?_, by decide, (b32Decode_ok _ _).mp (by decide), by decide⟩
  rw [← mixed_iff]; decide

/-- DecodeGatesFiveToSeven: a last group changed, a nonzero leftover, no byte at all, a hash of the wrong length; each
payload spelled by its own encoding, the shortest of nine groups. -/
theorem witness_gates_five_to_seven :
    (∃ g : List Group, 9 ≤ g.length ∧ ¬ Verifies [0x61] g) ∧
    (9 ≤ (payload [1]).length ∧ Verifies [0x61] (payload [1]) ∧ natOf [(1 : Group)] % 2 ^ (5 * 1 % 8) ≠ 0) ∧
    (9 ≤ (payload [0]).length ∧ Verifies [0x61] (payload [0]) ∧
      regroup 8 false ((payload [0]).take ((payload [0]).length - 8)) = .ok ([] : List Byte)) ∧
    (Verifies [0x61] (payload [0, 0]) ∧
      regroup 8 false ((payload [0, 0]).take ((payload [0, 0]).length - 8)) = .ok [(0 : Byte)] ∧
      ([] : List Byte).length ≠ lenOf ((0 : Byte).extractLsb' 0 3)) := by
  refine ⟨?_, ⟨by simp [payload_length], payload_verifies _, by decide⟩,
    ⟨by simp [payload_length], payload_verifies _, by rw [payload_take]; decide⟩,
    payload_verifies _, by rw [payload_take]; decide, by decide⟩
  refine ⟨[0] ++ explode (computeChecksum Config.generator [0x61] [0] ^^^ 1), by simp, fun h => ?_⟩
  rw [Verifies, ← ckInput, ckInput_append, polymod_append_eight _ _ _ (by simp), implode_explode, computeChecksum] at h
  simp at h

/-- SuperfluousZeroGroupDecodesToTheSameFields: a length where one group is accepted, and one where it is not. -/
theorem witness_superfluous : (31 : Nat) ≤ 31 ∧ ValidPfx [0x61] ∧
    makeVersion 31 0 (List.replicate 20 (0 : Byte)).length = .ok 0 ∧
    regroup 5 true ((0 : Byte) :: List.replicate 20 0) = .ok (List.replicate 34 (0 : Group)) ∧
    (List.replicate 20 (0 : Byte)).length ∈ ([20, 24, 32, 40, 64] : List Nat) ∧
    makeVersion 31 0 (List.replicate 28 (0 : Byte)).length = .ok 2 ∧
    (∃ g : List Group, regroup 5 true ((2 : Byte) :: List.replicate 28 0) = .ok g) ∧
    (List.replicate 28 (0 : Byte)).length ∈ ([28, 48, 56] : List Nat) := by
  obtain ⟨g, hg, -⟩ := regroup_pad 5 (by omega) ((2 : Byte) :: List.replicate 28 0)
  exact ⟨by decide, a_valid, by decide, regroup_zero, by decide, by decide, ⟨g, hg⟩, by decide⟩

/-- PrimitivesComposeToDecode: a text that decodes, its prefix and payload within capacity. -/
theorem witness_decodeFn : (∃ d, decodeFn Config.generator ([0x61] ++ [0x3A] ++ b32Encode (payload (List.replicate 34 0))) =
    .ok d) ∧ [0x61#8].length ≤ Config.pfxMax ∧ 0x3A ∉ [0x61#8] ∧
    (b32Encode (payload (List.replicate 34 0))).length ≤ Config.dataMax := by
  obtain ⟨hs, h9, hv, hr, hl⟩ := witness_decode
  refine ⟨⟨_, (decodeFn_ok _ _ _).mpr ⟨[0x61], _, _, _, _, rfl, a_valid, hs, h9, ?_, hr, hl, rfl⟩⟩, one_le_pfxMax,
    by decide, ?_⟩
  · simpa [verifyChecksum, ckInput, Verifies] using hv
  · have := pfxMax_add_le_dataMax
    simp [b32Encode, payload_length]; omega

/-- DecoderNeverRejectsAType: two types with one size class. -/
theorem witness_types : (0x00 : Byte).extractLsb' 0 3 = (0xF8 : Byte).extractLsb' 0 3 := by decide

end Sys2Proof.Tests
end

/-! ## The state: host access, marks and the invariant (10_state.md)

Inversion lemmas for a host write and for one host action, then the statements of this family from them. -/

namespace Sys2Proof.Machine

/-! ### A host write -/

/-- What a host write of `v` to `r` makes of the operands where it answers: one constructor per register, with the
capacity or the width that the value keeps (R12, R14, R59). -/
inductive Operands.Stores (o : Operands) : OpReg → Value → Operands → Prop
  | pfx (x : List Byte) : x.length ≤ Config.pfxMax → o.Stores .pfx (.bytes x) { o with pfx := .written x }
  | bytes (x : List Byte) : x.length ≤ Config.dataMax → o.Stores .bytes (.bytes x) { o with bytes := .written x }
  | grps (x : List Group) : x.length ≤ Config.dataMax → o.Stores .grps (.groups x) { o with grps := .written x }
  | type (x : Byte) : o.Stores .type (.scalar x.toNat) { o with type := .written x }
  | ver (x : Byte) : o.Stores .ver (.scalar x.toNat) { o with ver := .written x }
  | hlen (x : Byte) : o.Stores .hlen (.scalar x.toNat) { o with hlen := .written x }

/-- The operand buffers hold at most their capacity (R12). -/
def Operands.Fits (o : Operands) : Prop :=
  o.pfx.value.length ≤ Config.pfxMax ∧ o.bytes.value.length ≤ Config.dataMax ∧ o.grps.value.length ≤ Config.dataMax

theorem storeWithin_eq_next {α : Type} (cap : Nat) (r : OpReg) (v : List α) (n t : State) :
    storeWithin cap r v n = .next t ↔ v.length ≤ cap ∧ t = n := by
  unfold storeWithin
  split <;> simp [*, eq_comm]

theorem storeScalar_eq_next (r : OpReg) (n : Nat) (next : Byte → State) (t : State) :
    storeScalar r n next = .next t ↔ ∃ x : Byte, n = x.toNat ∧ t = next x := by
  unfold storeScalar
  constructor
  · intro h
    split at h
    · obtain rfl := Host.Outcome.next.inj h
      exact ⟨BitVec.ofNat 8 n, by simp; omega, rfl⟩
    · cases h
  · rintro ⟨x, rfl, rfl⟩
    simp [x.isLt]

/-- A host write that answers stored its value and changed nothing but the operands. -/
theorem hostWrite_next {r : OpReg} {v : Value} {s t : State} (h : hostWrite r v s = .next t) :
    ∃ o, s.op.Stores r v o ∧ t = s.withOp o := by
  unfold hostWrite at h
  split at h
  case h_1 x =>
    obtain ⟨hx, rfl⟩ := (storeWithin_eq_next ..).mp h
    exact ⟨_, .pfx x hx, rfl⟩
  case h_2 x =>
    obtain ⟨hx, rfl⟩ := (storeWithin_eq_next ..).mp h
    exact ⟨_, .bytes x hx, rfl⟩
  case h_3 x =>
    obtain ⟨hx, rfl⟩ := (storeWithin_eq_next ..).mp h
    exact ⟨_, .grps x hx, rfl⟩
  case h_4 n =>
    obtain ⟨x, rfl, rfl⟩ := (storeScalar_eq_next ..).mp h
    exact ⟨_, .type x, rfl⟩
  case h_5 n =>
    obtain ⟨x, rfl, rfl⟩ := (storeScalar_eq_next ..).mp h
    exact ⟨_, .ver x, rfl⟩
  case h_6 n =>
    obtain ⟨x, rfl, rfl⟩ := (storeScalar_eq_next ..).mp h
    exact ⟨_, .hlen x, rfl⟩
  case h_7 => cases h

/-- Conversely, a write of a value that the register has room for answers. -/
theorem Operands.Stores.hostWrite {r : OpReg} {v : Value} {s : State} {o : Operands} (h : s.op.Stores r v o) :
    hostWrite r v s = .next (s.withOp o) := by
  unfold Machine.hostWrite
  cases h with
  | pfx x hx | bytes x hx | grps x hx => exact (storeWithin_eq_next ..).mpr ⟨hx, rfl⟩
  | type x | ver x | hlen x => exact (storeScalar_eq_next ..).mpr ⟨x, rfl, rfl⟩

theorem Operands.Stores.value {o o' : Operands} {r : OpReg} {v : Value} (h : o.Stores r v o') : o'.value r = v := by
  cases h <;> rfl

theorem Operands.Stores.written {o o' : Operands} {r : OpReg} {v : Value} (h : o.Stores r v o') :
    o'.written r = true := by
  cases h <;> rfl

/-- A write to one operand register is seen in no other (R14). -/
theorem Operands.Stores.other {o o' : Operands} {r r' : OpReg} {v : Value} (h : o.Stores r v o') (hr : r' ≠ r) :
    o'.value r' = o.value r' ∧ o'.written r' = o.written r' := by
  revert hr
  cases h <;> cases r' <;> simp [Operands.value, Operands.written]

theorem Operands.Stores.written_iff {o o' : Operands} {r r' : OpReg} {v : Value} (h : o.Stores r v o') :
    o'.written r' = true ↔ o.written r' = true ∨ r = r' := by
  by_cases hr : r' = r
  · subst hr; simp [h.written]
  · simp [(h.other hr).2, Ne.symm hr]

theorem Operands.Stores.fits {o o' : Operands} {r : OpReg} {v : Value} (h : o.Stores r v o') (ho : o.Fits) :
    o'.Fits := by
  obtain ⟨hp, hb, hg⟩ := ho
  cases h with
  | pfx x hx => exact ⟨hx, hb, hg⟩
  | bytes x hx => exact ⟨hp, hx, hg⟩
  | grps x hx => exact ⟨hp, hb, hx⟩
  | type | ver | hlen => exact ⟨hp, hb, hg⟩

/-! ### One host action -/

/-- What one host action can do where it answers (R14, R36, R39, R47, R59, R155). -/
theorem perform_next {a : HostAction} {s t : State} (h : perform a s = .next t) :
    (∃ r v o, (a = .write r v ∨ a = .writeVar r) ∧ s.op.Stores r v o ∧ t = s.withOp o) ∨
    (∃ b i, a = .command b ∧ exec i s = .next t) ∨ (∃ b, a = .command b ∧ t = raiseError .illegalCommand s) ∨
    (∃ p v, a = .read p ∧ t = s.withHostVar v) ∨ (a = .reset ∧ t = resetBlock s) := by
  cases a with
  | write r v =>
    obtain ⟨o, ho, rfl⟩ := hostWrite_next h
    exact .inl ⟨r, v, o, .inl rfl, ho, rfl⟩
  | writeVar r =>
    simp only [perform, hostWriteVar] at h
    split at h
    case h_1 v _ =>
      obtain ⟨o, ho, rfl⟩ := hostWrite_next h
      exact .inl ⟨r, v, o, .inr rfl, ho, rfl⟩
    case h_2 => cases h
  | writeReadOnly p => cases h
  | command b =>
    simp only [perform, runCommand] at h
    split at h
    case h_1 i _ => exact .inr (.inl ⟨b, i, rfl, h⟩)
    case h_2 =>
      obtain rfl := Host.Outcome.next.inj h
      exact .inr (.inr (.inl ⟨b, rfl, rfl⟩))
  | read p =>
    simp only [perform, hostRead] at h
    split at h
    case h_1 v _ =>
      obtain rfl := Host.Outcome.next.inj h
      exact .inr (.inr (.inr (.inl ⟨p, v, rfl, rfl⟩)))
    case h_2 => cases h
  | reset =>
    obtain rfl := Host.Outcome.next.inj h
    exact .inr (.inr (.inr (.inr ⟨rfl, rfl⟩)))

theorem perform_read_written (r : OpReg) (s : State) (h : s.op.written r = true) :
    perform (.read (.op r)) s = .next { s with hostVar := some (s.op.value r) } := by
  simp [perform, hostRead, portValue, h, State.withHostVar]

theorem perform_read_unwritten (r : OpReg) (s : State) (h : s.op.written r = false) :
    perform (.read (.op r)) s = .refused (.readUnwrittenOperand r) := by
  simp [perform, hostRead, portValue, h]

/-- A command that answers changes nothing but the results and `ST` (R14, R134, R136). -/
theorem exec_frame {i : Instr} {s t : State} (h : exec i s = .next t) : t = { s with res := t.res, st := t.st } := by
  obtain ⟨r, -, -, rfl⟩ | ⟨e, -, rfl⟩ := exec_eq_next i s t h <;> rfl

theorem exec_keeps_op {i : Instr} {s t : State} (h : exec i s = .next t) : t.op = s.op := by
  rw [exec_frame h]

theorem Operands.unwritten_written (r : OpReg) : Operands.unwritten.written r = false := by
  cases r <;> rfl

/-! ### The operands a command reads -/

theorem held_eq_iff {α : Type} (a b : Held α) : a.value = b.value ∧ a.isWritten = b.isWritten ↔ a = b := by
  cases a <;> cases b <;> simp

/-- A command's outcome is a function of the operands it reads, values and marks (R21). -/
theorem commandOutcome_congr (i : Instr) (o o' : Operands)
    (h : ∀ r ∈ readSet i, o.value r = o'.value r ∧ o.written r = o'.written r) :
    commandOutcome i o = commandOutcome i o' := by
  cases i <;>
    simp only [readSet, List.forall_mem_cons, Operands.value, Operands.written,
      Value.bytes.injEq, Value.groups.injEq, Value.scalar.injEq, BitVec.toNat_inj, held_eq_iff] at h <;>
    simp only [commandOutcome, h]

/-! ### The invariant -/

/-- What the results of a command that ended without error satisfy (R13, R46, R72, R73, R111), capacity aside. -/
structure Results.Delivers (i : Instr) (r : Results) : Prop where
  writes : ∀ x : ResReg, r.isValid x = decide (x ∈ writeSet i)
  versionFields : ∀ v, r.ver = some v →
    r.type = some (v.extractLsb' 3 5) ∧ r.sc = some (v.extractLsb' 0 3) ∧
    r.hlen = some (BitVec.ofNat 7 (lenOf (v.extractLsb' 0 3)))
  flagIsCheck : ∀ b, r.flag = some b → ∃ c, r.ck = some c ∧ (b = true ↔ c = 1)
  checksumGroups : ∀ c g, r.ck = some c → r.grps = some g → g = explode c
  decodedFields : ∀ p, r.pfx = some p → ValidPfx p ∧
    ∃ h n, r.bytes = some h ∧ r.hlen = some n ∧ h.length = n.toNat

theorem versionResults_delivers (i : Instr) (v : Byte) (hi : writeSet i = [.ver, .type, .sc, .hlen]) :
    (versionResults v).Delivers i where
  writes x := by rw [hi]; cases x <;> rfl
  versionFields w hw := by
    obtain rfl := Option.some.inj hw
    simp [versionResults]
  flagIsCheck := nofun
  checksumGroups := nofun
  decodedFields := nofun

/-- The results of a command that delivers one byte buffer and nothing else. -/
theorem bytes_delivers (i : Instr) (b : List Byte) (hi : writeSet i = [.bytes]) :
    ({ Results.invalid with bytes := some b } : Results).Delivers i where
  writes x := by rw [hi]; cases x <;> rfl
  versionFields := nofun
  flagIsCheck := nofun
  checksumGroups := nofun
  decodedFields := nofun

/-- The results of a command that delivers one group buffer and nothing else. -/
theorem grps_delivers (i : Instr) (g : List Group) (hi : writeSet i = [.grps]) :
    ({ Results.invalid with grps := some g } : Results).Delivers i where
  writes x := by rw [hi]; cases x <;> rfl
  versionFields := nofun
  flagIsCheck := nofun
  checksumGroups := nofun
  decodedFields := nofun

theorem decodedResults_delivers (G : Generators) (a : List Byte) (d : Decoded) (h : decodeFn G a = .ok d) :
    (decodedResults d).Delivers .decode := by
  obtain ⟨p, x, g, v, hash, -, hp, -, -, -, -, hl, rfl⟩ := (decodeFn_ok G a d).mp h
  have hlen : hash.length = (BitVec.ofNat 7 hash.length).toNat := by
    have := lenOf_bounds (v.extractLsb' 0 3)
    rw [BitVec.toNat_ofNat]
    omega
  exact {
    writes := fun x => by cases x <;> simp [decodedResults, Results.isValid, Results.invalid, writeSet]
    versionFields := fun w hw => by
      obtain rfl := Option.some.inj hw
      simp [decodedResults, hl]
    flagIsCheck := nofun
    checksumGroups := nofun
    decodedFields := fun q hq => by
      obtain rfl : p = q := by simpa [decodedResults] using hq
      exact ⟨hp, hash, _, by simp [decodedResults], rfl, hlen⟩ }

theorem except_map_eq_ok {α : Type} {f : α → Results} {x : Except BlockError α} {r : Results} (h : x.map f = .ok r) :
    ∃ a, x = .ok a ∧ f a = r := by
  cases x with
  | ok a => exact ⟨a, rfl, Except.ok.inj h⟩
  | error e => cases h

theorem checkVersion_fields {v : Byte} {n : Nat} {f : VersionFields} (h : checkVersion v n = .ok f) :
    f = splitVersion v := by
  unfold checkVersion at h
  split at h
  · exact (Except.ok.inj h).symm
  · cases h

/-- Every command that ends without error delivers what its row of R46 says. -/
theorem commandOutcome_delivers (i : Instr) (o : Operands) (r : Results) (h : commandOutcome i o = some (.ok r)) :
    r.Delivers i := by
  cases i <;> simp only [commandOutcome, Option.bind_eq_some_iff, Option.map_eq_some_iff] at h
  case polymod =>
    obtain ⟨g, -, ⟨⟩⟩ := h
    exact ⟨fun x => by cases x <;> rfl, nofun, nofun, nofun, nofun⟩
  case cksum =>
    obtain ⟨p, -, g, -, ⟨⟩⟩ := h
    refine ⟨fun x => by cases x <;> rfl, nofun, nofun, fun c g hc hg => ?_, nofun⟩
    obtain rfl := Option.some.inj hc
    exact (Option.some.inj hg).symm
  case verify =>
    obtain ⟨p, -, g, -, ⟨⟩⟩ := h
    refine ⟨fun x => by cases x <;> rfl, nofun, fun b hb => ⟨_, rfl, ?_⟩, nofun, nofun⟩
    obtain rfl := Option.some.inj hb
    exact beq_iff_eq
  case r8to5 pad =>
    obtain ⟨b, -, hm⟩ := h
    obtain ⟨g, -, rfl⟩ := except_map_eq_ok hm
    exact grps_delivers _ g rfl
  case r5to8 pad =>
    obtain ⟨g, -, hm⟩ := h
    obtain ⟨b, -, rfl⟩ := except_map_eq_ok hm
    exact bytes_delivers _ b rfl
  case mkver =>
    obtain ⟨t, -, n, -, hm⟩ := h
    obtain ⟨v, -, rfl⟩ := except_map_eq_ok hm
    exact versionResults_delivers _ v rfl
  case verchk =>
    obtain ⟨v, -, n, -, hm⟩ := h
    obtain ⟨f, hf, rfl⟩ := except_map_eq_ok hm
    obtain rfl := checkVersion_fields hf
    exact versionResults_delivers _ v rfl
  case b32enc =>
    obtain ⟨g, -, ⟨⟩⟩ := h
    exact bytes_delivers _ _ rfl
  case b32dec =>
    obtain ⟨x, -, hm⟩ := h
    obtain ⟨g, -, rfl⟩ := except_map_eq_ok hm
    exact grps_delivers _ g rfl
  case encode =>
    obtain ⟨p, -, t, -, hash, -, hm⟩ := h
    obtain ⟨text, -, rfl⟩ := except_map_eq_ok hm
    exact bytes_delivers _ text rfl
  case decode =>
    obtain ⟨a, -, hm⟩ := h
    obtain ⟨d, hd, rfl⟩ := except_map_eq_ok hm
    exact decodedResults_delivers _ a d hd

theorem State.Inv.fits {s : State} (h : s.Inv) : s.op.Fits := ⟨h.opPfxFits, h.opBytesFits, h.opGrpsFits⟩

/-- The invariant speaks of the block's registers only, and of the operands through their lengths. -/
theorem State.Inv.of_same {s t : State} (h : s.Inv) (ho : t.op.Fits) (hr : t.res = s.res) (hs : t.st = s.st) :
    t.Inv := by
  obtain ⟨op, res, st, script, hostVar⟩ := t
  subst hr hs
  obtain ⟨hp, hb, hg⟩ := ho
  exact { h with opPfxFits := hp, opBytesFits := hb, opGrpsFits := hg }

/-- A state without a valid result is safe when `ST` is not that of a success. -/
theorem inv_of_invalid {s : State} (ho : s.op.Fits) (hr : s.res = Results.invalid)
    (hs : s.st = 0x00 ∨ ∃ e : BlockError, s.st = errorStatus e) : s.Inv := by
  have hne : s.st ≠ 0x80 := by
    obtain h | ⟨e, h⟩ := hs
    · rw [h]; decide
    · rw [h]; exact errorStatus_ne_success e
  obtain ⟨op, res, st, script, hostVar⟩ := s
  subst hr
  obtain ⟨hp, hb, hg⟩ := ho
  exact {
    opPfxFits := hp, opBytesFits := hb, opGrpsFits := hg
    resPfxFits := nofun, resBytesFits := nofun, resGrpsFits := nofun
    statusForm := hs.imp_right fun ⟨e, h⟩ => .inr ⟨e, h.trans (errorStatus_eq e)⟩
    nothingValid := fun _ => rfl
    exactlyOneWriteSet := fun h => absurd h hne
    versionFields := nofun, flagIsCheck := nofun, checksumGroups := nofun, decodedFields := nofun }

theorem deliver_inv {i : Instr} {r : Results} {s : State} (ho : s.op.Fits) (hr : r.Delivers i)
    (hc : r.overCapacity = none) : (deliver r s).Inv := by
  obtain ⟨hp, hb, hg⟩ := ho
  obtain ⟨hrp, hrb, hrg⟩ := overCapacity_fits r hc
  exact { hr with
    opPfxFits := hp, opBytesFits := hb, opGrpsFits := hg
    resPfxFits := hrp, resBytesFits := hrb, resGrpsFits := hrg
    statusForm := .inr (.inl successStatus_eq)
    nothingValid := fun h => absurd successStatus_eq h
    exactlyOneWriteSet := fun _ => ⟨i, hr.writes⟩ }

/-- A command leads to a safe state from any operands within capacity, whatever the results and `ST` were (R21). -/
theorem exec_inv {i : Instr} {s t : State} (ho : s.op.Fits) (h : exec i s = .next t) : t.Inv := by
  obtain ⟨r, hr, hc, rfl⟩ | ⟨e, -, rfl⟩ := exec_eq_next i s t h
  · exact deliver_inv ho (commandOutcome_delivers i s.op r hr) hc
  · exact inv_of_invalid ho rfl (.inr ⟨e, rfl⟩)

theorem Operands.unwritten_fits : Operands.unwritten.Fits :=
  ⟨List.length_take_le _ _, List.length_take_le _ _, List.length_take_le _ _⟩

theorem perform_keeps_inv {a : HostAction} {s t : State} (hs : s.Inv) (h : perform a s = .next t) : t.Inv := by
  obtain ⟨r, v, o, -, ho, rfl⟩ | ⟨b, i, -, he⟩ | ⟨b, -, rfl⟩ | ⟨p, v, -, rfl⟩ | ⟨-, rfl⟩ := perform_next h
  · exact hs.of_same (ho.fits hs.fits) rfl rfl
  · exact exec_inv hs.fits he
  · exact inv_of_invalid hs.fits rfl (.inr ⟨_, rfl⟩)
  · exact hs.of_same hs.fits rfl rfl
  · exact inv_of_invalid Operands.unwritten_fits rfl (.inl rfl)

/-! ### The obligations -/

/-- Settles O18, by what one host action can do (`perform_next`). -/
theorem everyStepKeepsTheStateSafe : Obligations.EveryStepKeepsTheStateSafe := by
  intro s t hs h
  obtain ⟨-, he⟩ | ⟨a, rest, -, he⟩ := step_eq s <;> rw [he] at h
  · obtain rfl := Host.Outcome.next.inj h
    exact hs
  · exact perform_keeps_inv (hs.of_same (t := s.withScript rest) hs.fits rfl rfl) h

/-- Settles O14: the outcome is a function of the operands read, and each end writes results and `ST` alone. -/
theorem resultDependsOnlyOnOperandsRead : Obligations.ResultDependsOnlyOnOperandsRead := by
  intro i s s' t hagree h
  have ho := commandOutcome_congr i s.op s'.op hagree
  obtain ⟨r, hr, hc, rfl⟩ | ⟨e, he, rfl⟩ := exec_eq_next i s t h
  · simpa using exec_ok i s' r (ho ▸ hr) hc
  · simpa using exec_error i s' e (ho ▸ he)

/-- Settles O8; that no result is read is O14 on two states with the same operands. -/
theorem directionOfRegisterAccess : Obligations.DirectionOfRegisterAccess := by
  refine ⟨fun i s t => exec_keeps_op, fun i s r t h => ?_, fun p s => rfl, fun r v s t h => ?_, perform_read_unwritten⟩
  · have h' := resultDependsOnlyOnOperandsRead i s { s with res := r } t (fun _ _ => ⟨rfl, rfl⟩) h
    rw [h', exec_frame h]
  · obtain ⟨o, ho, rfl⟩ := hostWrite_next h
    refine ⟨?_, rfl, rfl, ho.written, fun r' hr => ho.other hr⟩
    rw [perform_read_written r _ ho.written, withOp_op, ho.value]

/-- Settles O57, by what one host action can do (`perform_next`). -/
theorem onlyWriteAndResetChangeTheMark : Obligations.OnlyWriteAndResetChangeTheMark := by
  intro s t a rest r hscript h
  rw [step, hscript] at h
  obtain ⟨r', v, o, ha, ho, rfl⟩ | ⟨b, i, rfl, he⟩ | ⟨b, rfl, rfl⟩ | ⟨p, v, rfl, rfl⟩ | ⟨rfl, rfl⟩ := perform_next h
  · rw [withOp_op, ho.written_iff]
    obtain rfl | rfl := ha <;> simp
  · simp [exec_keeps_op he]
  · simp
  · simp
  · simp [Operands.unwritten_written]

/-- Settles O6: a buffer is stored under the test of its capacity (R163), and a byte fits every scalar register. -/
theorem hostWriteStoresTheWholeValue : Obligations.HostWriteStoresTheWholeValue := fun s =>
  ⟨fun _ => rfl, fun _ => rfl, fun _ => rfl, fun x => (Operands.Stores.type (o := s.op) x).hostWrite,
    fun x => (Operands.Stores.ver (o := s.op) x).hostWrite, fun x => (Operands.Stores.hlen (o := s.op) x).hostWrite⟩

/-- Settles O17: at reset nothing is valid and what the storage holds is within capacity (R12, R23). -/
theorem safeStateAtReset : Obligations.SafeStateAtReset :=
  inv_of_invalid Operands.unwritten_fits rfl (.inl rfl)

end Sys2Proof.Machine

/-! ## Memory: host reads, repetition and stepping (20_memory.md)

What a host read answers, said once through `portValue`, then the statements of this family. -/

namespace Sys2Proof.Machine

/-! ### A host read -/

/-- A read answers exactly where the port holds a value, and only the host variable takes it (R36, R58). -/
theorem perform_read_eq_next (p : Port) (s t : State) :
    perform (.read p) s = .next t ↔ ∃ v, portValue s p = .ok v ∧ t = { s with hostVar := some v } := by
  simp only [perform, hostRead, State.withHostVar]
  cases portValue s p <;> simp [eq_comm]

theorem perform_read_eq_refused (p : Port) (s : State) (r : Refusal) :
    perform (.read p) s = .refused r ↔ portValue s p = .error r := by
  simp only [perform, hostRead]
  cases portValue s p <;> simp

/-- A result register holds a value exactly while it is valid (R15). -/
theorem Results.value_isSome (r : Results) (x : ResReg) : (r.value x).isSome = r.isValid x := by
  cases x <;> exact Option.isSome_map

theorem perform_read_result {x : ResReg} {s : State} {v : Value} (h : s.res.value x = some v) :
    perform (.read (.res x)) s = .next { s with hostVar := some v } :=
  (perform_read_eq_next ..).mpr ⟨v, by simp [portValue, h], rfl⟩

theorem perform_read_valid {x : ResReg} {s : State} (h : s.res.isValid x = true) :
    ∃ v, s.res.value x = some v ∧ perform (.read (.res x)) s = .next { s with hostVar := some v } := by
  rw [← Results.value_isSome, Option.isSome_iff_exists] at h
  obtain ⟨v, hv⟩ := h
  exact ⟨v, hv, perform_read_result hv⟩

theorem perform_read_invalid {x : ResReg} {s : State} (h : s.res.isValid x = false) :
    perform (.read (.res x)) s = .refused (.readInvalidResult x) := by
  rw [← Results.value_isSome, Option.isSome_eq_false_iff, Option.isNone_iff_eq_none] at h
  exact (perform_read_eq_refused ..).mpr (by simp [portValue, h])

/-! ### The fields of the status register (R17) -/

theorem statusDone_toNat (st : BitVec 8) : (statusDone st).toNat = st.toNat / 128 := by
  revert st
  decide

theorem statusErr_toNat (st : BitVec 8) : (statusErr st).toNat = st.toNat % 16 := by
  simp [statusErr]

/-! ### Stepping -/

theorem step_of_pending {s : State} {a : HostAction} {rest : List HostAction} (h : s.script = a :: rest) :
    step s = perform a { s with script := rest } := by
  rw [step, h]
  rfl

/-- A legal byte written to `CMD` runs its command (R16, R46). -/
theorem perform_command_legal {b : Byte} {i : Instr} (s : State) (h : Sys2Proof.decode b = .ok i) :
    perform (.command b) s = exec i s := by
  rw [perform, runCommand, h]

/-! ### The obligations -/

/-- Settles O7: each clause is what `portValue` gives for one kind of port. -/
theorem hostReadIsPureAndDeclinesWhatHoldsNoValue : Obligations.HostReadIsPureAndDeclinesWhatHoldsNoValue := by
  intro s
  refine ⟨fun p t h => ?_, rfl, ?_, ?_, rfl, fun x => perform_read_invalid, fun x => perform_read_valid,
    fun r => perform_read_written r s, fun r => perform_read_unwritten r s, ?_, ?_, ?_, ?_, ?_, ?_, ?_, ?_, ?_,
    rfl, rfl, rfl, rfl, rfl, rfl⟩
  · obtain ⟨v, -, rfl⟩ := (perform_read_eq_next p s t).mp h
    rfl
  · exact (perform_read_eq_next ..).mpr ⟨_, rfl, by rw [statusDone_toNat]⟩
  · exact (perform_read_eq_next ..).mpr ⟨_, rfl, by rw [statusErr_toNat]⟩
  iterate 8 exact fun x h => perform_read_result (by simp [Results.value, h])
  exact fun flag h => perform_read_result (by cases flag <;> simp [Results.value, h])

/-- Settles O15: the operands are unchanged (R14) and the answer depends on nothing else (R21, O14). -/
theorem repeatedCommandLeavesTheSameState : Obligations.RepeatedCommandLeavesTheSameState := fun i s t h =>
  resultDependsOnlyOnOperandsRead i s t t (fun _ _ => by rw [exec_keeps_op h]; exact ⟨rfl, rfl⟩) h

/-- Settles O2, by the recursion of `step` on the pending actions (R38, R39). -/
theorem stepRunsTheDecodedCommand : Obligations.StepRunsTheDecodedCommand := by
  refine ⟨fun s b rest i h hb => ?_, fun s a rest => step_of_pending, fun s h => ?_⟩
  · rw [step_of_pending h, perform_command_legal _ hb]
  · rw [step, h]

end Sys2Proof.Machine

/-! ## Encoding: command words, `CP`, error codes and the tables (30_encoding.md)

The legal words are those of the eleven commands' fields, said once for the fields and once for the byte; what a copy
pair does, said once; then the statements of this family. -/

namespace Sys2Proof

/-! ### The fields of a command word (R45, R46, R47) -/

/-- No bit of a word is lost when it is split (R45). -/
theorem joinWord_splitWord (b : Byte) : joinWord (splitWord b) = b := by
  revert b
  decide

/-- Every command as syntax: its fields are legal and its byte carries them (R45, R46). -/
theorem Instr.wordFields (i : Instr) : Laws.WordFields.Statement i := by
  cases i with
  | polymod => exact Laws.WordFields.polymod
  | cksum => exact Laws.WordFields.cksum
  | verify => exact Laws.WordFields.verify
  | r8to5 pad => exact Laws.WordFields.r8to5 pad
  | r5to8 pad => exact Laws.WordFields.r5to8 pad
  | mkver => exact Laws.WordFields.mkver
  | verchk => exact Laws.WordFields.verchk
  | b32enc => exact Laws.WordFields.b32enc
  | b32dec => exact Laws.WordFields.b32dec
  | encode => exact Laws.WordFields.encode
  | decode => exact Laws.WordFields.decode

theorem decodeFields_fields (i : Instr) : decodeFields i.fields = .ok i := by
  cases i with
  | r8to5 pad | r5to8 pad => cases pad <;> rfl
  | _ => rfl

/-- The assigned command numbers are all but five of the sixteen (R46). -/
theorem CmdFields.opOk_iff (f : CmdFields) :
    f.opOk = true ↔ f.op ∉ ([0x0, 0xC, 0xD, 0xE, 0xF] : List (BitVec 4)) := by
  have h : ∀ op : BitVec 4, decide (1 ≤ op.toNat ∧ op.toNat ≤ 11) = true ↔ op ∉ [0x0, 0xC, 0xD, 0xE, 0xF] := by decide
  exact h f.op

/-- The three conditions on a legal word: `RSV` zero, an assigned `OP`, and `PAD` for the repackagers only (R47). -/
theorem CmdFields.wellFormed_iff (f : CmdFields) :
    f.wellFormed = true ↔ f.rsv = 0 ∧ f.op ∉ ([0x0, 0xC, 0xD, 0xE, 0xF] : List (BitVec 4)) ∧
      (f.pad = true → f.op = 4 ∨ f.op = 5) := by
  rw [← f.opOk_iff]
  cases hp : f.pad <;> simp [CmdFields.wellFormed, CmdFields.rsvOk, CmdFields.padOk, hp, and_assoc]

/-- Legal fields are those of a command: with `PAD` a repackager, without it the command that `OP` numbers (R46). -/
theorem CmdFields.exists_fields_eq {f : CmdFields} (h : f.wellFormed = true) : ∃ i : Instr, i.fields = f := by
  obtain ⟨hrsv, hop, hpad⟩ := f.wellFormed_iff.mp h
  obtain ⟨rsv, pad, op⟩ := f
  dsimp only at hrsv hop hpad
  subst hrsv
  cases pad with
  | true =>
    obtain rfl | rfl := hpad rfl
    · exact ⟨.r8to5 true, rfl⟩
    · exact ⟨.r5to8 true, rfl⟩
  | false =>
    have hlist : ∀ op : BitVec 4, op ∉ [0x0, 0xC, 0xD, 0xE, 0xF] → op = 1 ∨ op = 2 ∨ op = 3 ∨ op = 4 ∨ op = 5 ∨
        op = 6 ∨ op = 7 ∨ op = 8 ∨ op = 9 ∨ op = 10 ∨ op = 11 := by decide
    obtain rfl | rfl | rfl | rfl | rfl | rfl | rfl | rfl | rfl | rfl | rfl := hlist op hop
    exacts [⟨.polymod, rfl⟩, ⟨.cksum, rfl⟩, ⟨.verify, rfl⟩, ⟨.r8to5 false, rfl⟩, ⟨.r5to8 false, rfl⟩, ⟨.mkver, rfl⟩,
      ⟨.verchk, rfl⟩, ⟨.b32enc, rfl⟩, ⟨.b32dec, rfl⟩, ⟨.encode, rfl⟩, ⟨.decode, rfl⟩]

/-- Fields that fail one of the three checks do not decode (R47). -/
theorem decodeFields_illegal {f : CmdFields} (h : f.wellFormed = false) : ∃ e, decodeFields f = .error e := by
  unfold decodeFields
  split
  · exact ⟨_, rfl⟩
  split
  · exact ⟨_, rfl⟩
  split
  · exact ⟨_, rfl⟩
  simp_all [CmdFields.wellFormed]

theorem decodeFields_eq_ok_iff (f : CmdFields) (i : Instr) : decodeFields f = .ok i ↔ i.fields = f := by
  constructor
  · intro h
    cases hw : f.wellFormed with
    | true =>
      obtain ⟨j, rfl⟩ := CmdFields.exists_fields_eq hw
      rw [decodeFields_fields, Except.ok.injEq] at h
      rw [h]
    | false =>
      obtain ⟨e, he⟩ := decodeFields_illegal hw
      rw [he] at h
      cases h
  · rintro rfl
    exact decodeFields_fields i

theorem decodeFields_eq_error_iff (f : CmdFields) : (∃ e, decodeFields f = .error e) ↔ f.wellFormed = false := by
  refine ⟨fun ⟨e, he⟩ => ?_, decodeFields_illegal⟩
  by_contra hw
  obtain ⟨i, hi⟩ := CmdFields.exists_fields_eq (Bool.not_eq_false _ ▸ hw)
  rw [(decodeFields_eq_ok_iff f i).mpr hi] at he
  cases he

/-! ### Decoding and encoding a byte -/

theorem decode_eq_ok_iff (b : Byte) (i : Instr) : decode b = .ok i ↔ encode i = b := by
  constructor
  · intro h
    rw [encode, (decodeFields_eq_ok_iff _ _).mp h, joinWord_splitWord]
  · rintro rfl
    rw [decode, i.wordFields.2, decodeFields_fields]

/-- The three grounds on which a byte is no command word (R47). -/
theorem decode_eq_error_iff (b : Byte) : (∃ e, decode b = .error e) ↔
    b.extractLsb' 5 3 ≠ 0 ∨ b.extractLsb' 0 4 ∈ ([0x0, 0xC, 0xD, 0xE, 0xF] : List (BitVec 4)) ∨
      (b.getLsbD 4 = true ∧ b.extractLsb' 0 4 ≠ 4 ∧ b.extractLsb' 0 4 ≠ 5) := by
  have hw := (splitWord b).wellFormed_iff
  dsimp only [splitWord] at hw
  rw [decode, decodeFields_eq_error_iff, ← Bool.not_eq_true, splitWord, hw]
  tauto

end Sys2Proof

namespace Sys2Proof.Machine

/-! ### A copy pair (R59) -/

/-- The two steps of `CP` write the value of the result to the operand. -/
theorem run_copy {s : State} {dst : OpReg} {src : ResReg} {v : Value} {rest : List HostAction}
    (hv : s.res.value src = some v) (hs : s.script = scriptCp dst src ++ rest) :
    Host.Core.run core 2 s = hostWrite dst v { s with script := rest, hostVar := some v } := by
  have h1 : core.step s = .next { s with script := .writeVar dst :: rest, hostVar := some v } :=
    (step_of_pending hs).trans (perform_read_result hv)
  have h2 : core.step { s with script := .writeVar dst :: rest, hostVar := some v } =
      hostWrite dst v { s with script := rest, hostVar := some v } := rfl
  simp only [Host.Core.run, h1, h2]
  cases hostWrite dst v { s with script := rest, hostVar := some v } <;> rfl

/-- A copy to a register that has room for the value stores it. -/
theorem run_copy_stores {s : State} {dst : OpReg} {src : ResReg} {v : Value} {rest : List HostAction} {o : Operands}
    (ho : s.op.Stores dst v o) (hv : s.res.value src = some v) (hs : s.script = scriptCp dst src ++ rest) :
    Host.Core.run core 2 s = .next { s with op := o, script := rest, hostVar := some v } :=
  (run_copy hv hs).trans (ho.hostWrite (s := { s with script := rest, hostVar := some v }))

/-- A value that no write to the register takes: one of another unit width, or a number of more than eight bits
(R59, log entry 9). -/
def Value.misfits : Value → OpReg → Bool
  | .bytes _, .pfx | .bytes _, .bytes | .groups _, .grps => false
  | .scalar n, .type | .scalar n, .ver | .scalar n, .hlen => decide (256 ≤ n)
  | _, _ => true

theorem hostWrite_misfit {dst : OpReg} {v : Value} (s : State) (h : v.misfits dst = true) :
    hostWrite dst v s = .refused (.valueDoesNotFit dst) := by
  unfold hostWrite
  split
  case h_1 | h_2 | h_3 => cases h
  case h_4 | h_5 | h_6 => exact if_neg (by simpa [Value.misfits] using h)
  case h_7 => rfl

theorem run_copy_misfit {s : State} {dst : OpReg} {src : ResReg} {v : Value} {rest : List HostAction}
    (hm : v.misfits dst = true) (hv : s.res.value src = some v) (hs : s.script = scriptCp dst src ++ rest) :
    Host.Core.run core 2 s = .refused (.valueDoesNotFit dst) :=
  (run_copy hv hs).trans (hostWrite_misfit _ hm)

/-! ### Error codes (R56) -/

theorem BlockError.code_le (e : BlockError) : e.code.toNat ≤ 11 := by cases e <;> decide

theorem BlockError.code_injective {e f : BlockError} (h : e.code = f.code) : e = f :=
  errorStatus_injective e f (congrArg (statusWord true) h)

/-- The status word carries the code in `ERR` (R17). -/
theorem statusErr_statusWord (done : Bool) (err : BitVec 4) : (statusWord done err).extractLsb' 0 4 = err := by
  revert done err
  decide

theorem errorStatus_err_le (e : BlockError) : ((errorStatus e).extractLsb' 0 4).toNat ≤ 11 := by
  rw [errorStatus, statusErr_statusWord]
  exact e.code_le

theorem exec_err_le {i : Instr} {s t : State} (h : exec i s = .next t) : (t.st.extractLsb' 0 4).toNat ≤ 11 := by
  obtain ⟨r, -, -, rfl⟩ | ⟨e, -, rfl⟩ := exec_eq_next i s t h
  · simp
  · exact errorStatus_err_le e

theorem runCommand_illegal {b : Byte} {e : DecodeError} (s : State) (h : Sys2Proof.decode b = .error e) :
    runCommand b s = .next (raiseError .illegalCommand s) := by
  rw [runCommand, h]

theorem State.Inv.err_le {s : State} (h : s.Inv) : (s.st.extractLsb' 0 4).toNat ≤ 11 := by
  obtain h0 | h0 | ⟨e, h0⟩ := h.statusForm
  · simp [h0]
  · simp [h0]
  · rw [h0, ← errorStatus_eq]
    exact errorStatus_err_le e

/-! ### The obligations -/

/-- Settles O4: a word is its fields, and fields that decode are a command's own. -/
theorem decodeAndEncodeAgree : Obligations.DecodeAndEncodeAgree :=
  ⟨fun i => (decode_eq_ok_iff _ i).mpr rfl, fun b i => (decode_eq_ok_iff b i).mp⟩

/-- Settles O3: each byte is the word of its command, so O4 decodes it. -/
theorem legalBytesDecodeToTheirCommand : Obligations.LegalBytesDecodeToTheirCommand :=
  have h := decodeAndEncodeAgree.1
  ⟨h .polymod, h .cksum, h .verify, h (.r8to5 false), h (.r8to5 true), h (.r5to8 false), h (.r5to8 true), h .mkver,
    h .verchk, h .b32enc, h .b32dec, h .encode, h .decode⟩

/-- Settles O5: the grounds by `decode_eq_error_iff`, the count by inspection of the 256 bytes. -/
theorem illegalWordRaisesIllegalCommand : Obligations.IllegalWordRaisesIllegalCommand :=
  ⟨decode_eq_error_iff, by decide +kernel, fun _ _ s => runCommand_illegal s, .unassignedOp, rfl⟩

/-- Settles O9: each clause is a copy that stores or one that misfits. -/
theorem copyPairMovesAResultToAnOperand : Obligations.CopyPairMovesAResultToAnOperand := by
  intro s src rest
  refine ⟨fun x hv => ⟨fun hx => run_copy_stores (.pfx x hx) hv, fun hx => run_copy_stores (.bytes x hx) hv,
      fun dst hd => run_copy_misfit ?_ hv⟩,
    fun x hv => ⟨fun hx => run_copy_stores (.grps x hx) hv, fun dst hd => run_copy_misfit ?_ hv⟩,
    fun x hv => ⟨run_copy_stores (.type x) hv, run_copy_stores (.ver x) hv, run_copy_stores (.hlen x) hv⟩,
    fun n hv => ⟨fun hn dst hd => run_copy_misfit ?_ hv, fun dst hd => run_copy_misfit ?_ hv⟩⟩
  all_goals
    revert dst
    simp [Value.misfits, *]

/-- Settles O11: every status word a command or a safe state holds is a success or carries a code of the table. -/
theorem errorCodesAreTheTable : Obligations.ErrorCodesAreTheTable := by
  refine ⟨rfl, fun e f => BlockError.code_injective, rfl, fun i s t => exec_err_le, fun b s t h => ?_,
    fun s => State.Inv.err_le⟩
  cases hb : Sys2Proof.decode b with
  | ok i => exact exec_err_le ((perform_command_legal s hb).symm.trans h)
  | error e =>
    obtain rfl := Host.Outcome.next.inj ((runCommand_illegal s hb).symm.trans h)
    exact errorStatus_err_le .illegalCommand

/-- Settles O34, by the two laws of `SC_OF`. -/
theorem lengthTableAndItsInverse : Obligations.LengthTableAndItsInverse :=
  ⟨rfl, scOf_lenOf, fun _ _ => lenOf_of_scOf⟩

/-- Settles O36, by the laws of `ALPHA` and `VAL`; the counts by inspection of the string. -/
theorem alphabetIsATableWithAnInverse : Obligations.AlphabetIsATableWithAnInverse :=
  ⟨by decide, alphaVal_alphaChar, fun _ _ => alphaChar_of_alphaVal, alphaVal_eq_none, rfl, by decide, by decide,
    by decide, by decide⟩

end Sys2Proof.Machine

/-! ## The checksum engine: the recurrence, its tail and its three commands (40_checksum.md)

Up to seven elements never reach the constants, so the accumulator is the elements laid side by side behind the seed;
with that and the tail law of R70, the statements of this family. -/

namespace Sys2Proof.Machine

/-! ### `expand` (R65) -/

theorem lowFive_toNat (b : Byte) : ((b &&& 0x1F#8).setWidth 5).toNat = b.toNat % 32 := by
  revert b
  decide

theorem expand_getElem_toNat (p : List Byte) (i : Nat) (h : i < p.length) (h' : i < (expand p).length) :
    ((expand p)[i]).toNat = (p[i]).toNat % 32 := by
  simp only [expand, List.getElem_map, lowFive_toNat]

theorem expand_singleton (b : Byte) : expand [b] = [BitVec.ofNat 5 b.toNat] :=
  congrArg (fun v => [v]) (BitVec.eq_of_toNat_eq (lowFive_toNat b))

theorem group_ofNat_congr {m n : Nat} (h : m % 32 = n % 32) : (BitVec.ofNat 5 m : Group) = BitVec.ofNat 5 n :=
  BitVec.eq_of_toNat_eq (by simpa using h)

/-! ### Sequences as numbers (R33, R68) -/

theorem natOf_cons {w : Nat} (x : BitVec w) (xs : List (BitVec w)) :
    natOf (x :: xs) = x.toNat * 2 ^ (w * xs.length) + natOf xs := by
  rw [← digitsToNat_bitStream, bitStream_cons, digitsToNat_append]
  simp

theorem natOf_lt {w : Nat} (xs : List (BitVec w)) : natOf xs < 2 ^ (w * xs.length) := by
  simpa using digitsToNat_lt (bitStream xs)

/-- The number of a sequence and its length determine it. -/
theorem natOf_injective {w : Nat} {xs ys : List (BitVec w)} (hl : xs.length = ys.length) (h : natOf xs = natOf ys) :
    xs = ys :=
  bitStream_injective xs ys hl (digitsToNat_injective _ _ (by simp [hl]) (by simpa using h))

/-- Shifting a group into a word whose top five bits are clear is arithmetic on plain numbers. -/
theorem shiftIn_toNat (v : Acc) (d : Group) (h : v.toNat < 2 ^ 35) :
    ((v <<< 5) ||| d.setWidth 40).toNat = v.toNat * 2 ^ 5 + d.toNat := by
  rw [BitVec.toNat_or, BitVec.toNat_shiftLeft, Nat.shiftLeft_eq, Nat.mod_eq_of_lt (by omega),
    BitVec.toNat_setWidth_of_le (by omega), Nat.mul_comm, ← Nat.two_pow_add_eq_or_of_lt d.isLt]

/-- Up to eight groups fit the accumulator, so `implode` loses none of them (R68). -/
theorem implode_toNat (e : List Group) (h : e.length ≤ 8) : (implode e).toNat = natOf e := by
  induction e using List.reverseRecOn with
  | nil => rfl
  | append_singleton e d ih =>
    simp only [List.length_append, List.length_singleton] at h
    have hlt : natOf e < 2 ^ 35 := (natOf_lt e).trans_le (Nat.pow_le_pow_right (by omega) (by omega))
    have ih := ih (by omega)
    rw [implode_append, shiftIn_toNat _ d (ih ▸ hlt), ih, natOf_append]
    rfl

/-- The eight groups a word is exploded into are the only eight that make it. -/
theorem explode_implode (e : List Group) (h : e.length = 8) : explode (implode e) = e := by
  refine natOf_injective (by rw [explode_length, h]) ?_
  rw [← implode_toNat _ (explode_length _).le, implode_explode, implode_toNat e h.le]

theorem explode_getElem_toNat (v : Acc) (k : Nat) (h : k < (explode v).length) :
    ((explode v)[k]).toNat = v.toNat / 2 ^ (5 * (7 - k)) % 32 := by
  simp [explode, Nat.shiftRight_eq_div_pow]

/-! ### The recurrence on plain numbers (R66) -/

/-- One constant of a step on plain numbers: `G[i]` if bit `i` of `c0` is set. -/
theorem toNat_ite_xor (G : Generators) (c0 : BitVec 5) (i : Fin 5) (a : Acc) :
    (if c0.getLsbD i.val then a ^^^ G i else a).toNat =
      a.toNat ^^^ (if c0.toNat.testBit i.val then (G i).toNat else 0) := by
  rw [BitVec.testBit_toNat]
  split <;> simp

theorem applyGenerators_toNat (G : Generators) (c0 : BitVec 5) (c : Acc) :
    (applyGenerators G c0 c).toNat =
      let g (i : Fin 5) : Nat := if c0.toNat.testBit i.val then (G i).toNat else 0
      c.toNat ^^^ (g 0 ^^^ g 1 ^^^ g 2 ^^^ g 3 ^^^ g 4) := by
  simp only [applyGenerators, List.foldl_cons, List.foldl_nil, toNat_ite_xor, Nat.xor_assoc]

/-- The shifted accumulator with the element in its cleared low bits. -/
theorem shifted_toNat (c : Acc) (d : Group) :
    (((c &&& 0x07FFFFFFFF#40) <<< 5) ||| d.setWidth 40).toNat = c.toNat % 2 ^ 35 * 2 ^ 5 + d.toNat := by
  have hmask : (c &&& 0x07FFFFFFFF#40).toNat = c.toNat % 2 ^ 35 := Nat.and_two_pow_sub_one_eq_mod c.toNat 35
  rw [shiftIn_toNat _ d (by omega), hmask]

theorem polymodStep_toNat (G : Generators) (c : Acc) (d : Group) :
    (polymodStep G c d).toNat = natPolymodStep (fun i => (G i).toNat) c.toNat d.toNat := by
  have hc0 : ((c >>> 35).setWidth 5 : BitVec 5).toNat = c.toNat / 2 ^ 35 := by
    rw [BitVec.toNat_setWidth, BitVec.toNat_ushiftRight, Nat.shiftRight_eq_div_pow, Nat.mod_eq_of_lt (by omega)]
  rw [polymodStep, applyGenerators_toNat, hc0, shifted_toNat]
  rfl

theorem polymod_toNat (G : Generators) (x : List Group) :
    (polymod G x).toNat = natPolymod (fun i => (G i).toNat) (x.map BitVec.toNat) := by
  induction x using List.reverseRecOn with
  | nil => rfl
  | append_singleton x d ih => simp [polymod_append, polymodStep_toNat, ih, natPolymod]

/-! ### Short sequences and the order of the constants (R66) -/

/-- The seed is what one element 1 leaves of an empty accumulator, so up to seven elements are laid side by side behind
it, whatever the constants. -/
theorem polymod_short (G : Generators) (x : List Group) (h : x.length ≤ 7) : polymod G x = implode (1 :: x) := by
  have hseed : polymodStep G 0 1 = 1 := foldl_polymodStep_zero G [1] (by decide)
  rw [← foldl_polymodStep_zero G (1 :: x) (Nat.succ_le_succ h), List.foldl_cons, hseed]
  rfl

theorem polymod_short_toNat (G : Generators) (x : List Group) (h : x.length ≤ 7) :
    (polymod G x).toNat = 2 ^ (5 * x.length) + natOf x := by
  rw [polymod_short G x h, implode_toNat (1 :: x) (Nat.succ_le_succ h), natOf_cons]
  simp

/-- The seed reaches the top five bits with the seventh element. -/
theorem polymod_seven_top (G : Generators) (x : List Group) (h : x.length = 7) : polymod G x >>> 35 = 1 := by
  have hlt : natOf x < 2 ^ 35 := by simpa [h] using natOf_lt x
  apply BitVec.eq_of_toNat_eq
  rw [BitVec.toNat_ushiftRight, polymod_short_toNat G x h.le, h, Nat.shiftRight_eq_div_pow,
    Nat.add_div_left _ (by decide), Nat.div_eq_of_lt hlt]
  rfl

/-- The eighth zero shifts the seed out, and its bit selects `G[0]`. -/
theorem polymod_eight_zeros (G : Generators) : polymod G (List.replicate 8 0) = G 0 := by
  rw [List.replicate_succ', polymod_append, polymod_short G _ (by simp)]
  have hseven : implode (1 :: List.replicate 7 0) = 0x0800000000 := by decide
  have hone : applyGenerators G 1 0 = G 0 := by simp [applyGenerators]
  rw [hseven]
  exact hone

/-- The constants may be added in any order. -/
theorem applyGenerators_perm (G : Generators) (c0 : BitVec 5) (c : Acc) {order : List (Fin 5)}
    (h : order.Perm [0, 1, 2, 3, 4]) :
    order.foldl (fun a i => if c0.getLsbD i.val then a ^^^ G i else a) c = applyGenerators G c0 c := by
  refine h.foldl_eq' (fun i _ j _ a => ?_) c
  split <;> split <;> simp only [BitVec.xor_assoc, BitVec.xor_comm (G i)]

/-! ### The tail and single changes (R70) -/

/-- R70 law 3, its second half: over any tail the accumulator is 1, the tail and the checksum added up. -/
theorem polymod_tail (G : Generators) (p : List Byte) (g e : List Group) (h : e.length = 8) :
    polymod G (ckInput p (g ++ e)) = 1 ^^^ implode e ^^^ computeChecksum G p g := by
  have hones : ∀ u v : Acc, 1 ^^^ u ^^^ (v ^^^ 1) = (1 ^^^ 1) ^^^ (v ^^^ u) := fun u v => by ac_rfl
  rw [ckInput_append, polymod_append_eight G _ e h, computeChecksum, hones, BitVec.xor_self, BitVec.zero_xor]

/-- A tail verifies exactly if it spells the checksum. -/
theorem verifyChecksum_tail (G : Generators) (p : List Byte) (g e : List Group) (h : e.length = 8) :
    verifyChecksum G p (g ++ e) = true ↔ e = explode (computeChecksum G p g) := by
  have hsum : verifyChecksum G p (g ++ e) = true ↔ implode e = computeChecksum G p g := by
    rw [verifyChecksum, polymod_tail G p g e h, beq_iff_eq, BitVec.xor_assoc, ← BitVec.xor_eq_zero_iff]
    simp
  rw [hsum]
  constructor
  · intro he
    rw [← he, explode_implode e h]
  · rintro rfl
    exact implode_explode _

/-- Under `LowFiveIndependent` no further elements lose a difference of two accumulators. -/
theorem foldl_polymodStep_injective (G : Generators) (hG : LowFiveIndependent G) (y : List Group) {a b : Acc}
    (h : y.foldl (polymodStep G) a = y.foldl (polymodStep G) b) : a = b := by
  induction y generalizing a b with
  | nil => exact h
  | cons d y ih => exact polymodStep_acc_injective G hG a b d (ih h)

/-- Under `LowFiveIndependent` two inputs that differ in one element have different accumulators. -/
theorem polymod_ne_of_changed (G : Generators) (hG : LowFiveIndependent G) (x y : List Group) {d d' : Group}
    (hd : d ≠ d') : polymod G (x ++ d :: y) ≠ polymod G (x ++ d' :: y) := by
  intro h
  simp only [polymod_append, List.foldl_cons] at h
  exact hd (polymodStep_group_injective G _ d d' (foldl_polymodStep_injective G hG y h))

/-! ### The results within capacity (R163) -/

/-- Neither a checksum nor a flag takes a buffer. -/
theorem checksumResults_fit (ck : Option Acc) (flag : Option Bool) :
    ({ Results.invalid with ck := ck, flag := flag } : Results).overCapacity = none := rfl

/-- A checksum's own groups fit the smallest buffer that R7 admits. -/
theorem checksumGroups_fit (v : Acc) :
    ({ Results.invalid with ck := some v, grps := some (explode v) } : Results).overCapacity = none := by
  have hfits : 8 ≤ Config.dataMax := by have := pfxMax_add_le_dataMax; omega
  simp [overCapacity_eq_none, Results.invalid, hfits]

/-! ### The obligations -/

/-- Settles O20: the recurrence step by step, the corner cases by `polymod_short`. -/
theorem polymodIsTheRecurrence : Obligations.PolymodIsTheRecurrence :=
  ⟨polymod_toNat, fun _ => rfl, polymod_short_toNat, polymod_seven_top, polymod_eight_zeros,
    fun G c0 c _ => applyGenerators_perm G c0 c⟩

/-- Settles O21; the second inverse, because the number of a sequence and its length determine it. -/
theorem explodeAndImplodeAreInverse : Obligations.ExplodeAndImplodeAreInverse :=
  ⟨explode_length, explode_getElem_toNat, implode_explode, explode_implode, by decide⟩

/-- Settles O23, by the tail law (R70 law 1). -/
theorem onlyTheComputedTailVerifies : Obligations.OnlyTheComputedTailVerifies := by
  intro G p g e h
  refine ⟨verifyChecksum_tail G p g e h, ?_⟩
  rw [implode_explode, polymod_tail G p g e h]

/-- Settles O22: the computed tail is the one that O23 says verifies. -/
theorem computedChecksumVerifies : Obligations.ComputedChecksumVerifies :=
  fun G p g => (verifyChecksum_tail G p g _ (explode_length _)).mpr rfl

/-- Settles O24: neither the changed element's step nor a later one loses the difference. -/
theorem oneChangedGroupIsDetected : Obligations.OneChangedGroupIsDetected := by
  refine ⟨fun G x y d d' hG hd h h' => polymod_ne_of_changed G hG x y hd (h.trans h'.symm), ?_⟩
  intro G hG p x y d d' hd h
  simp only [verifyChecksum, ckInput_append, beq_iff_eq, beq_eq_false_iff_ne] at h ⊢
  exact fun h' => polymod_ne_of_changed G hG _ y hd (h.trans h'.symm)

/-- Settles O25; the corner cases by `polymod_short`. -/
theorem polymodDeliversTheRawAccumulator : Obligations.PolymodDeliversTheRawAccumulator := by
  refine ⟨rfl, fun s g hg => ⟨?_, ?_, ?_, fun h G => ?_⟩⟩
  · exact exec_ok .polymod s _ (by simp [commandOutcome, hg]) (checksumResults_fit ..)
  · rintro rfl
    rfl
  · rintro rfl
    rw [polymod_short _ _ (by decide)]
    decide
  · rw [polymod_short G g h, polymod_short _ g h]

/-- Settles O19: every letter's five low bits are its position, in either case. -/
theorem expandTakesTheLowFiveBits : Obligations.ExpandTakesTheLowFiveBits := by
  refine ⟨fun p => ⟨expand_length p, expand_getElem_toNat p⟩, fun b hlo _ => ?_, fun b _ _ => ?_, by decide⟩
  · rw [expand_singleton, group_ofNat_congr (n := b.toNat - 0x60) (by omega)]
  · have hlower : (b + 0x20).toNat = b.toNat + 32 := by bv_omega
    rw [expand_singleton, expand_singleton, hlower, group_ofNat_congr (n := b.toNat + 32) (by omega)]

/-- Settles O26: the eight groups of the checksum are within capacity (R7). -/
theorem cksumDeliversTheChecksumAndItsGroups : Obligations.CksumDeliversTheChecksumAndItsGroups := by
  refine ⟨rfl, fun s p g hp hg => ⟨computeChecksum Config.generator p g, rfl, ?_⟩, rfl⟩
  exact exec_ok .cksum s _ (by simp [commandOutcome, hp, hg]) (checksumGroups_fit _)

/-- Settles O27; on empty operands the input is the one zero of R67. -/
theorem verifyDeliversTheFlagAndTheAccumulator : Obligations.VerifyDeliversTheFlagAndTheAccumulator := by
  refine ⟨rfl, fun s p g hp hg => ⟨polymod Config.generator (ckInput p g), _, rfl, beq_iff_eq, ?_, ?_⟩⟩
  · exact exec_ok .verify s _ (by simp [commandOutcome, hp, hg]) (checksumResults_fit ..)
  · rintro rfl rfl
    have hzero : polymod Config.generator (ckInput [] []) = 0x20 := polymod_short _ [0] (by decide)
    rw [hzero]
    decide

end Sys2Proof.Machine

/-! ## Regrouping: the loop, the numbers, and the two repackagers (41_regroup.md)

Groups already cut off a stream stay as they are when more bits follow, which gives the loop of R80 and the law on an
initial part of the input; a stream equation read as numbers gives lengths and padding bits. -/

namespace Sys2Proof.Machine

/-! ### Cutting a stream that begins with whole groups -/

theorem leftover_append (tw : Nat) (a S : List Bool) (ha : a.length = tw) (h0 : 0 < tw) :
    leftover tw (a ++ S) = leftover tw S := by
  rw [leftover, leftover, List.length_append, ha, Nat.add_div_left _ h0, Nat.succ_mul, Nat.add_comm, ← List.drop_drop,
    List.drop_left' ha]

theorem leftover_short (tw : Nat) (S : List Bool) (h : S.length < tw) : leftover tw S = S := by
  simp [leftover, Nat.div_eq_of_lt h]

theorem cut_bitStream_append {tw : Nat} (h0 : 0 < tw) (xs : List (BitVec tw)) (S : List Bool) :
    fullGroups tw (bitStream xs ++ S) = xs ++ fullGroups tw S ∧ leftover tw (bitStream xs ++ S) = leftover tw S := by
  induction xs with
  | nil => exact ⟨rfl, rfl⟩
  | cons x xs ih =>
    obtain ⟨hf, hl⟩ := ih
    rw [bitStream_cons, List.append_assoc, fullGroups_append tw _ _ (msbFirst_length x) h0,
      leftover_append tw _ _ (msbFirst_length x) h0, hf, hl, ofDigits_msbFirst]
    exact ⟨rfl, rfl⟩

/-- Further bits continue from the leftover; the groups before it stand. -/
theorem cut_append {tw : Nat} (h0 : 0 < tw) (S T : List Bool) :
    fullGroups tw (S ++ T) = fullGroups tw S ++ fullGroups tw (leftover tw S ++ T) ∧
      leftover tw (S ++ T) = leftover tw (leftover tw S ++ T) := by
  have h := cut_bitStream_append h0 (fullGroups tw S) (leftover tw S ++ T)
  rwa [← List.append_assoc, bitStream_fullGroups_append_leftover tw S h0] at h

/-! ### The loop of R80 -/

/-- What the loop of R80 holds between elements, after the stream `S`: the leftover as a number, how many bits it has,
and the groups emitted. -/
def loopState (tw : Nat) (S : List Bool) : Nat × Nat × List Nat :=
  (digitsToNat (leftover tw S), (leftover tw S).length, (fullGroups tw S).map BitVec.toNat)

/-- The inner loop cuts the bits it holds into groups, if `fuel` admits that many turns. -/
theorem loopEmit_digits {tw : Nat} (h0 : 0 < tw) (fuel : Nat) (S : List Bool) (out : List Nat)
    (hfuel : S.length < tw * (fuel + 1)) :
    loopEmit tw fuel (digitsToNat S, S.length, out) =
      (digitsToNat (leftover tw S), (leftover tw S).length, out ++ (fullGroups tw S).map BitVec.toNat) := by
  induction fuel generalizing S out with
  | zero =>
    have hlt : S.length < tw := by simpa using hfuel
    simp [loopEmit, leftover_short tw S hlt, fullGroups_short tw S hlt]
  | succ fuel ih =>
    rw [loopEmit]
    split
    case isTrue hle =>
      obtain ⟨a, R, rfl, ha⟩ : ∃ a R, S = a ++ R ∧ a.length = tw :=
        ⟨S.take tw, S.drop tw, (List.take_append_drop tw S).symm, List.length_take_of_le hle⟩
      have hR : (a ++ R).length - tw = R.length := by simp [ha]
      have hacc : digitsToNat (a ++ R) % 2 ^ R.length = digitsToNat R := by
        rw [digitsToNat_append, Nat.mul_comm, Nat.mul_add_mod, Nat.mod_eq_of_lt (digitsToNat_lt R)]
      have hemit : digitsToNat (a ++ R) / 2 ^ R.length % 2 ^ tw = (ofDigits tw a).toNat := by
        rw [digitsToNat_append, Nat.mul_comm, Nat.mul_add_div (by positivity), Nat.div_eq_of_lt (digitsToNat_lt R)]
        rfl
      have hfuel' : R.length < tw * (fuel + 1) := by
        rw [List.length_append, ha, Nat.mul_succ] at hfuel
        omega
      rw [hR, hacc, hemit, ih R _ hfuel', leftover_append tw a R ha h0, fullGroups_append tw a R ha h0]
      simp
    case isFalse hlt =>
      simp [leftover_short tw S (not_le.mp hlt), fullGroups_short tw S (not_le.mp hlt)]

/-- One element of the outer loop: at most `fw` groups are emitted, so the fuel suffices. -/
theorem loopEmit_loopState {fw tw : Nat} (h0 : 0 < tw) (S : List Bool) (x : BitVec fw) :
    loopEmit tw fw ((loopState tw S).1 * 2 ^ fw + x.toNat, (loopState tw S).2.1 + fw, (loopState tw S).2.2) =
      loopState tw (S ++ msbFirst x) := by
  have hlen : (leftover tw S ++ msbFirst x).length < tw * (fw + 1) := by
    have hlt : (leftover tw S).length < tw := by rw [leftover_length]; exact Nat.mod_lt _ h0
    have hfw : fw ≤ tw * fw := Nat.le_mul_of_pos_left fw h0
    rw [List.length_append, msbFirst_length, Nat.mul_succ]
    omega
  have h := loopEmit_digits h0 fw (leftover tw S ++ msbFirst x) ((fullGroups tw S).map BitVec.toNat) hlen
  obtain ⟨hfull, hleft⟩ := cut_append h0 S (msbFirst x)
  simpa [loopState, hfull, hleft, digitsToNat_append] using h

/-- R80: the loop over all elements cuts their stream. -/
theorem foldl_loopEmit {fw tw : Nat} (h0 : 0 < tw) (x : List (BitVec fw)) :
    (x.map BitVec.toNat).foldl (fun (st : Nat × Nat × List Nat) x =>
      loopEmit tw fw (st.1 * 2 ^ fw + x, st.2.1 + fw, st.2.2)) (0, 0, []) = loopState tw (bitStream x) := by
  induction x using List.reverseRecOn with
  | nil => simp [loopState, leftover, fullGroups]
  | append_singleton x d ih =>
    rw [List.map_append, List.foldl_append, ih]
    simpa using loopEmit_loopState h0 (bitStream x) d

theorem regroup_eq_loopRegroup {fw tw : Nat} (h0 : 0 < tw) (pad : Bool) (x : List (BitVec fw)) :
    (regroup tw pad x).map (List.map BitVec.toNat) = loopRegroup fw tw pad (x.map BitVec.toNat) := by
  rw [loopRegroup, foldl_loopEmit h0, regroup, loopState]
  have hzero := digitsToNat_eq_zero (leftover tw (bitStream x))
  have hpadded : ∀ k, (ofDigits tw (leftover tw (bitStream x) ++ List.replicate k false)).toNat =
      digitsToNat (leftover tw (bitStream x)) * 2 ^ k % 2 ^ tw := fun k => by
    simp [ofDigits, digitsToNat_append]
  rcases Nat.eq_zero_or_pos (leftover tw (bitStream x)).length with hl | hl
  · simp [hl, Except.map]
  · cases pad with
    | true => simp [hl, hl.ne', Except.map, hpadded]
    | false =>
      cases ha : (leftover tw (bitStream x)).any id <;> simp [hl, hl.ne', ha, hzero, Except.map]

/-! ### The output as a number -/

theorem regroup_pad_natOf {fw tw : Nat} (h0 : 0 < tw) (x : List (BitVec fw)) :
    ∃ g : List (BitVec tw), regroup tw true x = .ok g ∧ g.length = (fw * x.length + (tw - 1)) / tw ∧
      natOf g = natOf x * 2 ^ (tw * g.length - fw * x.length) := by
  obtain ⟨g, hg, k, hk, hS⟩ := regroup_pad tw h0 x
  have hlen := congrArg List.length hS
  have hnum := congrArg digitsToNat hS
  simp only [bitStream_length, List.length_append, List.length_replicate] at hlen
  simp only [digitsToNat_bitStream, digitsToNat_append, List.length_replicate, digitsToNat_replicate_false] at hnum
  refine ⟨g, hg, ?_, ?_⟩
  · symm
    rw [Nat.div_eq_iff h0, Nat.mul_comm]
    omega
  · rw [hnum, hlen, Nat.add_sub_cancel_left]
    rfl

theorem regroup_noPad_natOf {fw tw : Nat} (h0 : 0 < tw) (x : List (BitVec fw)) (g : List (BitVec tw))
    (h : regroup tw false x = .ok g) :
    g.length = fw * x.length / tw ∧ natOf g = natOf x / 2 ^ (fw * x.length % tw) := by
  obtain ⟨k, hk, hS⟩ := (regroup_noPad_ok tw h0 x g).mp h
  have hlen := congrArg List.length hS
  have hnum := congrArg digitsToNat hS
  simp only [bitStream_length, List.length_append, List.length_replicate] at hlen
  simp only [digitsToNat_bitStream, digitsToNat_append, List.length_replicate, digitsToNat_replicate_false] at hnum
  rw [hlen, hnum, Nat.mul_add_div h0, Nat.div_eq_of_lt hk, Nat.mul_add_mod, Nat.mod_eq_of_lt hk]
  simp

theorem regroup_noPad_error_iff {fw tw : Nat} (h0 : 0 < tw) (x : List (BitVec fw)) :
    (regroup tw false x : Except BlockError (List (BitVec tw))) = .error .nonZeroPadding ↔
      natOf x % 2 ^ (fw * x.length % tw) ≠ 0 := by
  rw [regroup_noPad_error, ← digitsToNat_leftover tw h0, ne_eq, digitsToNat_eq_zero]
  simp

/-- R81 law 5: without padding the leftover bits decide between groups and the error. -/
theorem regroup_noPad_cases {fw tw : Nat} (h0 : 0 < tw) (x : List (BitVec fw)) :
    (∃ g : List (BitVec tw), regroup tw false x = .ok g ∧ natOf x % 2 ^ (fw * x.length % tw) = 0) ∨
      (regroup tw false x = (.error .nonZeroPadding : Except BlockError (List (BitVec tw))) ∧
        natOf x % 2 ^ (fw * x.length % tw) ≠ 0) := by
  have herr := regroup_noPad_error_iff h0 x
  cases h : (regroup tw false x : Except BlockError (List (BitVec tw))) with
  | ok g => exact .inl ⟨g, rfl, by simpa [h] using herr⟩
  | error e =>
    obtain ⟨rfl, -⟩ := (regroup_noPad_error tw x e).mp h
    exact .inr ⟨rfl, herr.mp h⟩

/-- R81 laws 1 and 5 without padding, in the form that O29 states them. -/
theorem regroup_noPad_spec {fw tw : Nat} (h0 : 0 < tw) (x : List (BitVec fw)) :
    if natOf x % 2 ^ (fw * x.length % tw) = 0 then
      ∃ g : List (BitVec tw), regroup tw false x = .ok g ∧ g.length = fw * x.length / tw ∧
        natOf g = natOf x / 2 ^ (fw * x.length % tw)
    else regroup tw false x = (.error .nonZeroPadding : Except BlockError (List (BitVec tw))) := by
  obtain ⟨g, hg, hz⟩ | ⟨he, hnz⟩ := regroup_noPad_cases (tw := tw) h0 x
  · rw [if_pos hz]
    exact ⟨g, hg, regroup_noPad_natOf h0 x g hg⟩
  · rwa [if_neg hnz]

/-! ### The groups and their number, whatever `pad` is -/

theorem fullGroups_prefix_of_regroup {fw tw : Nat} {pad : Bool} {x : List (BitVec fw)} {g : List (BitVec tw)}
    (h : regroup tw pad x = .ok g) : fullGroups tw (bitStream x) <+: g := by
  simp only [regroup] at h
  split_ifs at h <;> cases h <;> simp

/-- R81 law 6: the groups that an initial part of the input fills. -/
theorem regroup_take {fw tw : Nat} (h0 : 0 < tw) (x y : List (BitVec fw)) {pad pad' : Bool} {g g' : List (BitVec tw)}
    (h : regroup tw pad x = .ok g) (h' : regroup tw pad' (x ++ y) = .ok g') :
    g'.take (fw * x.length / tw) = g.take (fw * x.length / tw) := by
  have hlen : (fullGroups tw (bitStream x)).length = fw * x.length / tw := by simp
  have hg := fullGroups_prefix_of_regroup h
  have hg' : fullGroups tw (bitStream x) <+: g' := by
    refine List.IsPrefix.trans ?_ (fullGroups_prefix_of_regroup h')
    rw [bitStream_append, (cut_append h0 _ _).1]
    exact List.prefix_append _ _
  rw [← hlen, ← List.prefix_iff_eq_take.mp hg, ← List.prefix_iff_eq_take.mp hg']

theorem regroup_length_le {fw tw : Nat} (h0 : 0 < tw) {pad : Bool} {x : List (BitVec fw)} {g : List (BitVec tw)}
    (h : regroup tw pad x = .ok g) : g.length ≤ (fw * x.length + (tw - 1)) / tw := by
  cases pad with
  | true =>
    obtain ⟨g', hg', hlen, -⟩ := regroup_pad_natOf (tw := tw) h0 x
    obtain rfl := Except.ok.inj (h.symm.trans hg')
    exact hlen.le
  | false =>
    rw [(regroup_noPad_natOf h0 x g h).1]
    exact Nat.div_le_div_right (Nat.le_add_right _ _)

/-- Without a leftover `pad` does not matter (R80). -/
theorem regroup_eq_fullGroups {fw tw : Nat} (pad : Bool) (x : List (BitVec fw)) (h : fw * x.length % tw = 0) :
    regroup tw pad x = .ok (fullGroups tw (bitStream x)) := by
  have hl : (leftover tw (bitStream x)).length = 0 := by rw [leftover_length, bitStream_length, h]
  simp [regroup, hl]

/-! ### Leftover bits of the last element, and zeros -/

theorem natOf_mod_of_getLast? {w r : Nat} {xs : List (BitVec w)} {last : BitVec w} (h : xs.getLast? = some last)
    (hr : r ≤ w) : natOf xs % 2 ^ r = last.toNat % 2 ^ r := by
  obtain ⟨init, rfl⟩ := List.getLast?_eq_some_iff.mp h
  obtain ⟨d, hd⟩ : 2 ^ r ∣ natOf init * 2 ^ w := Dvd.dvd.mul_left (Nat.pow_dvd_pow 2 hr) _
  rw [natOf_append, List.foldl_cons, List.foldl_nil, hd, Nat.mul_add_mod]

theorem natOf_replicate_zero (w n : Nat) : natOf (List.replicate n (0 : BitVec w)) = 0 := by
  induction n with
  | zero => rfl
  | succ n ih => simpa [List.replicate_succ, natOf_cons] using ih

theorem bitStream_replicate_zero (w n : Nat) :
    bitStream (List.replicate n (0 : BitVec w)) = List.replicate (w * n) false := by
  refine digitsToNat_injective _ _ (by simp) ?_
  rw [digitsToNat_bitStream, natOf_replicate_zero, digitsToNat_replicate_false]

/-- Zeros that fall short of a group are dropped however many they are (R80 corner case b). -/
theorem regroup_zeros {fw tw : Nat} (h0 : 0 < tw) (n : Nat) :
    regroup tw false (List.replicate n (0 : BitVec fw)) = .ok (List.replicate (fw * n / tw) (0 : BitVec tw)) := by
  refine (regroup_noPad_ok tw h0 _ _).mpr ⟨fw * n % tw, Nat.mod_lt _ h0, ?_⟩
  rw [bitStream_replicate_zero, bitStream_replicate_zero, List.replicate_append_replicate, Nat.div_add_mod]

/-! ### The two commands (R82, R83) -/

theorem grpsResult_fits {g : List Group} (h : g.length ≤ Config.dataMax) :
    ({ Results.invalid with grps := some g } : Results).overCapacity = none := by
  simp [overCapacity_eq_none, Results.invalid, h]

theorem bytesResult_fits {b : List Byte} (h : b.length ≤ Config.dataMax) :
    ({ Results.invalid with bytes := some b } : Results).overCapacity = none := by
  simp [overCapacity_eq_none, Results.invalid, h]

theorem exec_r8to5_ok {s : State} {pad : Bool} {b : List Byte} {g : List Group} (hb : s.op.bytes = .written b)
    (hg : regroup 5 pad b = .ok g) (hfit : g.length ≤ Config.dataMax) :
    exec (.r8to5 pad) s = .next { s with res := { Results.invalid with grps := some g }, st := 0x80 } :=
  exec_ok _ s _ (by simp [commandOutcome, hb, hg, Except.map]) (grpsResult_fits hfit)

theorem exec_r8to5_error {s : State} {pad : Bool} {b : List Byte} (hb : s.op.bytes = .written b)
    (he : regroup 5 pad b = (.error .nonZeroPadding : Except BlockError (List Group))) :
    exec (.r8to5 pad) s = .next { s with res := Results.invalid, st := 0x88 } :=
  exec_error _ s .nonZeroPadding (by simp [commandOutcome, hb, he, Except.map])

theorem exec_r5to8_ok {s : State} {pad : Bool} {g : List Group} {b : List Byte} (hg : s.op.grps = .written g)
    (hb : regroup 8 pad g = .ok b) (hfit : b.length ≤ Config.dataMax) :
    exec (.r5to8 pad) s = .next { s with res := { Results.invalid with bytes := some b }, st := 0x80 } :=
  exec_ok _ s _ (by simp [commandOutcome, hg, hb, Except.map]) (bytesResult_fits hfit)

theorem exec_r5to8_error {s : State} {pad : Bool} {g : List Group} (hg : s.op.grps = .written g)
    (he : regroup 8 pad g = (.error .nonZeroPadding : Except BlockError (List Byte))) :
    exec (.r5to8 pad) s = .next { s with res := Results.invalid, st := 0x88 } :=
  exec_error _ s .nonZeroPadding (by simp [commandOutcome, hg, he, Except.map])

/-- R82: the leftover bits of a byte sequence are low bits of its last byte. -/
theorem regroup_bytes_error_iff (b : List Byte) :
    (regroup 5 false b : Except BlockError (List Group)) = .error .nonZeroPadding ↔
      ∃ last : Byte, b.getLast? = some last ∧ last.toNat % 2 ^ (8 * b.length % 5) ≠ 0 := by
  have hlow : ∀ last, b.getLast? = some last →
      natOf b % 2 ^ (8 * b.length % 5) = last.toNat % 2 ^ (8 * b.length % 5) :=
    fun last h => natOf_mod_of_getLast? h (by omega)
  rw [regroup_noPad_error_iff (by decide)]
  cases h : b.getLast? with
  | none => simp [List.getLast?_eq_none_iff.mp h, natOf]
  | some last => simp [hlow last h]

/-! ### The obligations -/

/-- Settles O28, by what the loop holds between elements (`loopState`). -/
theorem regroupIsTheAccumulatorLoop : Obligations.RegroupIsTheAccumulatorLoop :=
  ⟨regroup_eq_loopRegroup (by decide), regroup_eq_loopRegroup (by decide)⟩

/-- Settles O29: the stream equations of `regroup`, read as numbers. -/
theorem regroupKeepsTheBitStreamAsANumber : Obligations.RegroupKeepsTheBitStreamAsANumber :=
  ⟨regroup_pad_natOf (by decide), regroup_pad_natOf (by decide), regroup_noPad_spec (by decide),
    regroup_noPad_spec (by decide)⟩

/-- Settles O30: the padding is fewer than five zeros, which fall short of a byte. -/
theorem regroupRoundTripRestoresTheBytes : Obligations.RegroupRoundTripRestoresTheBytes := by
  intro b
  obtain ⟨g, hg, k, hk, hS⟩ := regroup_pad 5 (by decide) b
  exact ⟨g, hg, (regroup_noPad_ok 8 (by decide) g b).mpr ⟨k, by omega, hS⟩⟩

/-- Settles O31: the full groups of the initial part begin both outputs. -/
theorem regroupOutputPrefixDependsOnInputPrefix : Obligations.RegroupOutputPrefixDependsOnInputPrefix :=
  ⟨fun x y _ _ _ _ => regroup_take (by decide) x y, fun x y _ _ _ _ => regroup_take (by decide) x y⟩

/-- Settles O32; which bits can raise the error, by `regroup_bytes_error_iff`. -/
theorem r8to5RegroupsBytesIntoGroups : Obligations.R8to5RegroupsBytesIntoGroups := by
  refine ⟨rfl, rfl, fun s pad b hb => ⟨fun g => exec_r8to5_ok hb, ?_, ?_, ?_, fun h => ?_, ?_⟩⟩
  · rintro ⟨last, rfl, hlast⟩
    exact exec_r8to5_error hb ((regroup_bytes_error_iff b).mpr ⟨last, hlast⟩)
  · cases pad with
    | true =>
      obtain ⟨g, hg, -⟩ := regroup_pad 5 (by decide) b
      exact .inl ⟨g, hg⟩
    | false =>
      obtain ⟨g, hg, -⟩ | ⟨he, -⟩ := regroup_noPad_cases (tw := 5) (by decide) b
      · exact .inl ⟨g, hg⟩
      · obtain ⟨last, hlast⟩ := (regroup_bytes_error_iff b).mp he
        exact .inr ⟨last, rfl, hlast⟩
  · rintro rfl
    rfl
  · rw [regroup_eq_fullGroups false b (by omega), regroup_eq_fullGroups true b (by omega)]
  · rintro rfl
    revert pad
    decide

/-- Settles O33; five bits for eight, so the output is within the capacity of the input. -/
theorem r5to8RegroupsGroupsIntoBytes : Obligations.R5to8RegroupsGroupsIntoBytes := by
  refine ⟨rfl, rfl, fun s pad g hg => ⟨fun b hb hfit => ?_, ?_, ?_, ?_, ?_, ?_, ?_, ?_⟩⟩
  · have hlen := regroup_length_le (by decide) hb
    exact exec_r5to8_ok hg hb (by omega)
  · rintro rfl hnz
    exact exec_r5to8_error hg ((regroup_noPad_error_iff (by decide) g).mpr hnz)
  · cases pad with
    | true =>
      obtain ⟨b, hb, -⟩ := regroup_pad 8 (by decide) g
      exact .inl ⟨b, hb⟩
    | false =>
      obtain ⟨b, hb, -⟩ | ⟨-, hnz⟩ := regroup_noPad_cases (tw := 8) (by decide) g
      · exact .inl ⟨b, hb⟩
      · exact .inr ⟨rfl, hnz⟩
  · rintro rfl rfl
    decide
  · rintro rfl
    revert pad
    decide
  · rintro (rfl | rfl) rfl
    · exact regroup_zeros (by decide) 35
    · exact regroup_zeros (by decide) 34
  · rintro rfl rfl
    decide
  · rintro rfl rfl
    decide

end Sys2Proof.Machine

/-! ## The version byte and the alphabet: the two validators and the two mappings (42_version_alphabet.md)

What `make_version` and `check_version` succeed with, as results of a command; when a text spells groups; then the
statements of this family. -/

namespace Sys2Proof.Machine

/-! ### The version byte (R50, R90, R91) -/

/-- A byte is its type field above its size class (R50). -/
theorem toNat_eq_versionFields (v : Byte) :
    v.toNat = (v.extractLsb' 3 5).toNat * 8 + (v.extractLsb' 0 3).toNat := by
  simp only [BitVec.extractLsb'_toNat, Nat.shiftRight_eq_div_pow]
  omega

/-- The four results of a version byte whose implied length the byte `n` holds (R94, R95). -/
theorem versionResults_eq {v n : Byte} (hn : n.toNat = lenOf (v.extractLsb' 0 3)) :
    versionResults v =
      { Results.invalid with
        ver := some v, type := some (v.extractLsb' 3 5), sc := some (v.extractLsb' 0 3),
        hlen := some (n.setWidth 7) } := by
  rw [versionResults, verType_eq, verSc_eq, ← hn, BitVec.ofNat_toNat]

/-- The results of a byte that `make_version` builds, in the terms it was built from (R94). -/
theorem versionResults_built {t n : Byte} {sc : BitVec 3} (ht : t.toNat ≤ 31) (hn : n.toNat = lenOf sc) :
    versionResults ((t <<< 3) ||| sc.setWidth 8) =
      { Results.invalid with
        ver := some ((t <<< 3) ||| sc.setWidth 8), type := some (t.setWidth 5), sc := some sc,
        hlen := some (n.setWidth 7) } := by
  obtain ⟨htype, hsc, -⟩ := version_fields t sc ht
  rw [versionResults_eq (hsc.symm ▸ hn), htype, hsc]

/-- Every length of the table fits the seven bits of `RES.HLEN` (R13, R51). -/
theorem hlen_setWidth_toNat {n : Byte} {sc : BitVec 3} (hn : n.toNat = lenOf sc) : (n.setWidth 7).toNat = n.toNat := by
  have := lenOf_bounds sc
  rw [BitVec.toNat_setWidth, Nat.mod_eq_of_lt (by omega)]

/-! ### The two validators (R94, R95) -/

/-- A version byte and its fields take no buffer. -/
theorem versionResults_fit (v : Byte) : (versionResults v).overCapacity = none := rfl

theorem exec_mkver_ok {s : State} {t n v : Byte} (ht : s.op.type = .written t) (hn : s.op.hlen = .written n)
    (h : makeVersion Config.typeMax t n.toNat = .ok v) :
    exec .mkver s = .next { s with res := versionResults v, st := 0x80 } :=
  exec_ok _ s _ (by simp [commandOutcome, ht, hn, h, Except.map]) (versionResults_fit v)

theorem exec_mkver_error {s : State} {t n : Byte} {e : BlockError} (ht : s.op.type = .written t)
    (hn : s.op.hlen = .written n) (h : makeVersion Config.typeMax t n.toNat = .error e) :
    exec .mkver s = .next { s with res := Results.invalid, st := errorStatus e } :=
  exec_error _ s e (by simp [commandOutcome, ht, hn, h, Except.map])

theorem exec_verchk_ok {s : State} {v n : Byte} (hv : s.op.ver = .written v) (hn : s.op.hlen = .written n)
    (h : n.toNat = lenOf (v.extractLsb' 0 3)) :
    exec .verchk s = .next { s with res := versionResults v, st := 0x80 } :=
  exec_ok _ s _ (by simp [commandOutcome, hv, hn, checkVersion_eq, h, Except.map, versionResults])
    (versionResults_fit v)

theorem exec_verchk_error {s : State} {v n : Byte} (hv : s.op.ver = .written v) (hn : s.op.hlen = .written n)
    (h : n.toNat ≠ lenOf (v.extractLsb' 0 3)) :
    exec .verchk s = .next { s with res := Results.invalid, st := 0x89 } :=
  exec_error _ s .hashLengthMismatch (by simp [commandOutcome, hv, hn, checkVersion_eq, h, Except.map])

/-! ### The two mappings (R92, R96, R97) -/

theorem alphaChar_not_uppercase (v : Group) : ¬ (0x41 ≤ (alphaChar v).toNat ∧ (alphaChar v).toNat ≤ 0x5A) := by
  simpa only [isUpper, decide_eq_false_iff_not] using isUpper_alphaChar v

/-- A text of one case whose folded bytes are all characters of the alphabet spells groups: neither error of
`b32_decode` is left (R92). -/
theorem exists_spells {x : List Byte} (hm : ¬ MixedText x) (ha : ∀ b ∈ x, foldCase b ∈ alphabet) :
    ∃ g : List Group, Spells x g := by
  cases h : b32Decode x with
  | ok g => exact ⟨g, (b32Decode_ok x g).mp h⟩
  | error e =>
    obtain ⟨-, hmixed⟩ | ⟨-, -, b, hb, hno⟩ := (b32Decode_error x e).mp h
    · exact absurd hmixed hm
    · exact absurd (ha b hb) hno

theorem exec_b32dec_error {s : State} {x : List Byte} {e : BlockError} (hx : s.op.bytes = .written x)
    (h : b32Decode x = .error e) :
    exec .b32dec s = .next { s with res := Results.invalid, st := errorStatus e } :=
  exec_error _ s e (by simp [commandOutcome, hx, h, Except.map])

/-! ### The obligations -/

/-- Settles O38: the two ways `make_version` fails and what it builds. -/
theorem mkverBuildsTheVersionByte : Obligations.MkverBuildsTheVersionByte := by
  obtain ⟨-, hmax⟩ := typeMax_bounds
  refine ⟨rfl, fun sc => ?_, Nat.lt_succ_of_le hmax,
    fun s t n ht hn => ⟨fun sc hlen htype => ⟨?_, ?_, hlen_setWidth_toNat hlen⟩, fun hno => ?_, fun hex htype => ?_⟩⟩
  · have := lenOf_bounds sc
    omega
  · rw [exec_mkver_ok ht hn ((makeVersion_ok ..).mpr ⟨sc, hlen, htype, rfl⟩),
      versionResults_built (htype.trans hmax) hlen]
  · obtain ⟨-, -, hsame⟩ := version_fields t sc (htype.trans hmax)
    exact hsame
  · exact exec_mkver_error ht hn ((makeVersion_error ..).mpr (.inl ⟨rfl, hno⟩))
  · exact exec_mkver_error ht hn ((makeVersion_error ..).mpr (.inr ⟨rfl, hex, htype⟩))

/-- Settles O35, by the fields of a built byte (`version_fields`). -/
theorem splitVersionUndoesMakeVersion : Obligations.SplitVersionUndoesMakeVersion := by
  refine ⟨fun typeMax t v n hmax h => ?_, fun v => ?_⟩
  · obtain ⟨sc, rfl, ht, rfl⟩ := (makeVersion_ok typeMax t v n).mp h
    obtain ⟨htype, hsc, hsame⟩ := version_fields t sc (ht.trans hmax)
    rw [splitVersion_eq, htype, hsc]
    exact ⟨scOf_lenOf sc, rfl, hsame, rfl⟩
  · rw [splitVersion_eq]
    exact ⟨rfl, rfl, toNat_eq_versionFields v⟩

/-- Settles O37: the text of a sequence spells it, and a decoded text, folded, is the text of its groups. -/
theorem b32DecodeUndoesB32Encode : Obligations.B32DecodeUndoesB32Encode := by
  refine ⟨fun g => (b32Decode_ok _ g).mpr (spells_b32Encode g), fun x g h => ?_⟩
  obtain ⟨-, hfold⟩ := (b32Decode_ok x g).mp h
  exact hfold.symm

/-- Settles O41, by when `b32_decode` fails, with what, and what it delivers. -/
theorem b32decChecksCaseThenAlphabet : Obligations.B32decChecksCaseThenAlphabet := by
  refine ⟨rfl, fun s x hx => ⟨fun hm => ?_, fun hm hno => ?_, fun g hg hfit => ?_, exists_spells⟩⟩
  · exact exec_b32dec_error hx ((b32Decode_error ..).mpr (.inl ⟨rfl, hm⟩))
  · exact exec_b32dec_error hx ((b32Decode_error ..).mpr (.inr ⟨rfl, hm, hno⟩))
  · exact exec_ok .b32dec s _ (by simp [commandOutcome, hx, (b32Decode_ok x g).mpr hg, Except.map])
      (grpsResult_fits hfit)

/-- Settles O39: the fields of every byte are its bits, and the length alone decides. -/
theorem verchkSplitsAndChecksTheVersionByte : Obligations.VerchkSplitsAndChecksTheVersionByte := by
  refine ⟨rfl, fun s v n hv hn => ⟨fun h => ?_, exec_verchk_error hv hn⟩⟩
  rw [exec_verchk_ok hv hn h, versionResults_eq h]

/-- Settles O40; a character for a group, so the text is within the capacity of the groups. -/
theorem b32encMapsGroupsToCharacters : Obligations.B32encMapsGroupsToCharacters := by
  refine ⟨rfl, fun s g hg hfit => ⟨?_, fun b hb => ?_, ?_⟩⟩
  · exact exec_ok .b32enc s _ (by simp [commandOutcome, hg, b32Encode])
      (bytesResult_fits (by rwa [List.length_map]))
  · obtain ⟨v, -, rfl⟩ := List.mem_map.mp hb
    exact ⟨alphaChar_mem v, alphaChar_not_uppercase v⟩
  · rintro rfl
    decide

end Sys2Proof.Machine

/-! ## The encoder (43_encode.md)

When `encode_fn` succeeds, in the terms of its operands; the layout of the text it assembles, and that the decoder takes
the text apart again; then the statements of this family. -/

namespace Sys2Proof.Machine

/-! ### Success and failure of `encode_fn` (R100, R102) -/

/-- The lengths of the table are the ones that have a size class (R51). -/
theorem not_mem_lenTable_iff (n : Nat) : n ∉ lenTable ↔ ∀ sc : BitVec 3, n ≠ lenOf sc := by
  rw [← scOf_eq_none]
  simp [scOf, List.idxOf?_eq_none_iff]

theorem mem_lenTable_iff (n : Nat) : n ∈ lenTable ↔ ∃ sc : BitVec 3, n = lenOf sc := by
  simpa using (not_mem_lenTable_iff n).not

/-- `encodeFn_ok` with the version byte written out: what the operands are and what text they give. -/
theorem encodeFn_ok_iff (G : Generators) (typeMax : Nat) (p h text : List Byte) (t : Byte) :
    encodeFn G typeMax p t h = .ok text ↔
      ValidPfx p ∧ t.toNat ≤ typeMax ∧ ∃ (sc : BitVec 3) (g : List Group), h.length = lenOf sc ∧
        regroup 5 true (((t <<< 3) ||| sc.setWidth 8) :: h) = .ok g ∧ text = assemble G p g := by
  rw [encodeFn_ok]
  constructor
  · rintro ⟨hp, ver, g, hver, hg, htext⟩
    obtain ⟨sc, hlen, ht, rfl⟩ := (makeVersion_ok ..).mp hver
    exact ⟨hp, ht, sc, g, hlen, hg, htext⟩
  · rintro ⟨hp, ht, sc, g, hlen, hg, htext⟩
    exact ⟨hp, _, g, (makeVersion_ok ..).mpr ⟨sc, hlen, ht, rfl⟩, hg, htext⟩

theorem except_map_eq_error {α : Type} {f : α → Results} {x : Except BlockError α} {e : BlockError}
    (h : x.map f = .error e) : x = .error e := by
  cases x with
  | ok a => cases h
  | error e' => exact congrArg Except.error (Except.error.inj h)

/-- R102: no error but the four checks'. -/
theorem encodeFn_error_mem {G : Generators} {typeMax : Nat} {p h : List Byte} {t : Byte} {e : BlockError}
    (he : encodeFn G typeMax p t h = .error e) : e ∈ errorSet .encode := by
  obtain hpfx | ⟨-, hver⟩ := (encodeFn_error ..).mp he
  · obtain ⟨rfl, -⟩ | ⟨rfl, -⟩ := (checkPfx_error ..).mp hpfx <;> simp [errorSet]
  · obtain ⟨rfl, -⟩ | ⟨rfl, -⟩ := (makeVersion_error ..).mp hver <;> simp [errorSet]

/-! ### The data groups (R100) -/

theorem regroup_pad_length {fw tw : Nat} (h0 : 0 < tw) {x : List (BitVec fw)} {g : List (BitVec tw)}
    (h : regroup tw true x = .ok g) : g.length = (fw * x.length + (tw - 1)) / tw := by
  obtain ⟨g', hg', hlen, -⟩ := regroup_pad_natOf h0 x
  obtain rfl := Except.ok.inj (h.symm.trans hg')
  exact hlen

/-- The first five bits of a byte are its upper five (R33). -/
theorem ofDigits_take_msbFirst (v : Byte) : ofDigits 5 ((msbFirst v).take 5) = v.extractLsb' 3 5 := by
  have htake : (msbFirst v).take 5 = msbFirst (v.extractLsb' 3 5) := by
    simp [msbFirst, List.range_succ]
  rw [htake, ofDigits_msbFirst]

/-- The first data group is the type field of the version byte (R50, R80). -/
theorem regroup_bytes_head {pad : Bool} {v : Byte} {h : List Byte} {g : List Group}
    (hg : regroup 5 pad (v :: h) = .ok g) : ∃ rest, g = v.extractLsb' 3 5 :: rest := by
  obtain ⟨rest, rfl⟩ := fullGroups_prefix_of_regroup hg
  rw [bitStream_cons, ← List.take_append_drop 5 (msbFirst v), List.append_assoc,
    fullGroups_append 5 _ _ (by simp) (by decide), ofDigits_take_msbFirst]
  exact ⟨_, rfl⟩

theorem dataGroups_length {v : Byte} {h : List Byte} {g : List Group} (hg : regroup 5 true (v :: h) = .ok g) :
    g.length = (8 * (h.length + 1) + 4) / 5 :=
  regroup_pad_length (by decide) hg

/-- A version byte and a supported hash are at most 65 bytes (R51). -/
theorem dataGroups_length_le {v : Byte} {h : List Byte} {sc : BitVec 3} {g : List Group} (hlen : h.length = lenOf sc)
    (hg : regroup 5 true (v :: h) = .ok g) : g.length ≤ 104 := by
  have hbound := lenOf_bounds sc
  have hsize := dataGroups_length hg
  omega

/-! ### The layout of the text (R54, R103) -/

theorem b32Encode_append (g g' : List Group) : b32Encode (g ++ g') = b32Encode g ++ b32Encode g' :=
  List.map_append

@[simp] theorem b32Encode_length (g : List Group) : (b32Encode g).length = g.length := List.length_map _

theorem assemble_eq (G : Generators) (p : List Byte) (g : List Group) :
    assemble G p g = p ++ separator :: b32Encode (g ++ explode (computeChecksum G p g)) := by
  simp [assemble]

@[simp] theorem assemble_length (G : Generators) (p : List Byte) (g : List Group) :
    (assemble G p g).length = p.length + 1 + g.length + 8 := by
  simp only [assemble_eq, List.length_append, List.length_cons, b32Encode_length, explode_length]
  omega

/-- All but the last eight characters: none of them comes from the constants. -/
theorem assemble_take (G : Generators) (p : List Byte) (g : List Group) :
    (assemble G p g).take ((assemble G p g).length - 8) = p ++ separator :: b32Encode g := by
  have hlen : (assemble G p g).length - 8 = (p ++ separator :: b32Encode g).length := by
    simp only [assemble_length, List.length_append, List.length_cons, b32Encode_length]
    omega
  rw [hlen, assemble_eq, b32Encode_append, ← List.cons_append, ← List.append_assoc, List.take_left]

theorem assemble_drop (G : Generators) (p : List Byte) (g : List Group) :
    (assemble G p g).drop (p.length + 1) = b32Encode (g ++ explode (computeChecksum G p g)) := by
  simp [assemble_eq]

theorem assemble_count_separator {p : List Byte} (hp : ValidPfx p) (G : Generators) (g : List Group) :
    (assemble G p g).count separator = 1 := by
  rw [assemble_eq, List.count_append, List.count_cons_self, List.count_eq_zero_of_not_mem hp.separator_not_mem,
    List.count_eq_zero_of_not_mem (spells_b32Encode _).separator_not_mem]

/-- An address text fits `RES.BYTES`: R7 makes room for the longest. -/
theorem assemble_fits {p : List Byte} {g : List Group} (hp : p.length ≤ Config.pfxMax) (hg : g.length ≤ 104)
    (G : Generators) : (assemble G p g).length ≤ Config.dataMax := by
  have := pfxMax_add_le_dataMax
  rw [assemble_length]
  omega

/-! ### The decoder on an assembled text (R104, R121) -/

/-- A text assembled from the padded groups of a version byte and a hash of the implied length decodes to exactly these:
the checksum verifies by the tail law, and the padding falls short of a byte. -/
theorem decodeFn_assemble (G : Generators) {p h : List Byte} {v : Byte} {g : List Group} (hp : ValidPfx p)
    (hg : regroup 5 true (v :: h) = .ok g) (hlen : h.length = lenOf (v.extractLsb' 0 3)) :
    decodeFn G (assemble G p g) = .ok ⟨p, v, v.extractLsb' 3 5, v.extractLsb' 0 3, h.length, h⟩ := by
  have hback : regroup 8 false g = .ok (v :: h) := by
    obtain ⟨g', hg', hback⟩ := regroupRoundTripRestoresTheBytes (v :: h)
    obtain rfl := Except.ok.inj (hg.symm.trans hg')
    exact hback
  have hsize := dataGroups_length hg
  refine (decodeFn_ok ..).mpr ⟨p, _, g ++ explode (computeChecksum G p g), v, h, assemble_eq G p g, hp,
    spells_b32Encode _, ?_, computedChecksumVerifies G p g, ?_, hlen, rfl⟩
  · rw [List.length_append, explode_length]
    omega
  · rwa [List.length_append, explode_length, Nat.add_sub_cancel, List.take_left]

/-! ### The commands that encode and the one that reads the text (R72, R96, R101, R111) -/

theorem exec_encode_eq {s : State} {p h : List Byte} {t : Byte} (hp : s.op.pfx = .written p)
    (ht : s.op.type = .written t) (hh : s.op.bytes = .written h) :
    exec .encode s = finish ((encodeFn Config.generator Config.typeMax p t h).map fun text =>
      { Results.invalid with bytes := some text }) s :=
  exec_of_outcome _ s _ (by simp [commandOutcome, hp, ht, hh])

theorem exec_encode_ok {s : State} {p h text : List Byte} {t : Byte} (hp : s.op.pfx = .written p)
    (ht : s.op.type = .written t) (hh : s.op.bytes = .written h)
    (he : encodeFn Config.generator Config.typeMax p t h = .ok text) (hfit : text.length ≤ Config.dataMax) :
    exec .encode s = .next { s with res := { Results.invalid with bytes := some text }, st := 0x80 } := by
  rw [exec_encode_eq hp ht hh, he]
  exact complete_fits _ s (bytesResult_fits hfit)

theorem exec_encode_error {s : State} {p h : List Byte} {t : Byte} {e : BlockError} (hp : s.op.pfx = .written p)
    (ht : s.op.type = .written t) (hh : s.op.bytes = .written h)
    (he : encodeFn Config.generator Config.typeMax p t h = .error e) :
    exec .encode s = .next { s with res := Results.invalid, st := errorStatus e } := by
  rw [exec_encode_eq hp ht hh, he]
  rfl

/-- An `ENCODE` that ends with success delivered what `encode_fn` returns. -/
theorem encodeFn_of_exec_encode {s s' : State} {p h text : List Byte} {t : Byte} (hp : s.op.pfx = .written p)
    (ht : s.op.type = .written t) (hh : s.op.bytes = .written h) (hexec : exec .encode s = .next s')
    (hst : s'.st = 0x80) (htext : s'.res.bytes = some text) :
    encodeFn Config.generator Config.typeMax p t h = .ok text := by
  rw [exec_encode_eq hp ht hh] at hexec
  cases he : encodeFn Config.generator Config.typeMax p t h with
  | error e =>
    rw [he] at hexec
    obtain rfl := Host.Outcome.next.inj hexec
    exact absurd hst (errorStatus_ne_success e)
  | ok text' =>
    rw [he] at hexec
    obtain ⟨-, rfl⟩ := (complete_eq_next ..).mp hexec
    exact congrArg Except.ok (Option.some.inj htext)

/-- The status `ENCODE` ends with, whatever its operands. -/
theorem exec_encode_status {s s' : State} (hexec : exec .encode s = .next s') :
    s'.st = 0x80 ∨ ∃ e ∈ errorSet .encode, s'.st = errorStatus e := by
  obtain ⟨r, -, -, rfl⟩ | ⟨e, ho, rfl⟩ := exec_eq_next .encode s s' hexec
  · exact .inl successStatus_eq
  · refine .inr ⟨e, ?_, rfl⟩
    simp only [commandOutcome, Option.bind_eq_some_iff, Option.map_eq_some_iff] at ho
    obtain ⟨p, -, t, -, h, -, ho⟩ := ho
    exact encodeFn_error_mem (except_map_eq_error ho)

theorem exec_decode_ok {s : State} {a : List Byte} {d : Decoded} (ha : s.op.bytes = .written a)
    (hd : decodeFn Config.generator a = .ok d) (hp : d.pfx.length ≤ Config.pfxMax)
    (hh : d.hash.length ≤ Config.dataMax) :
    exec .decode s = .next { s with res := decodedResults d, st := 0x80 } :=
  exec_ok _ s _ (by simp [commandOutcome, ha, hd, Except.map])
    (by simp [overCapacity_eq_none, decodedResults, Results.invalid, hp, hh])

theorem exec_cksum_eq {s : State} {p : List Byte} {g : List Group} (hp : s.op.pfx = .written p)
    (hg : s.op.grps = .written g) :
    exec .cksum s = .next { s with
      res := { Results.invalid with
        ck := some (computeChecksum Config.generator p g)
        grps := some (explode (computeChecksum Config.generator p g)) }
      st := 0x80 } :=
  exec_ok _ s _ (by simp [commandOutcome, hp, hg]) (checksumGroups_fit _)

theorem exec_b32enc_ok {s : State} {g : List Group} (hg : s.op.grps = .written g) (hfit : g.length ≤ Config.dataMax) :
    exec .b32enc s = .next { s with res := { Results.invalid with bytes := some (b32Encode g) }, st := 0x80 } :=
  exec_ok _ s _ (by simp [commandOutcome, hg]) (bytesResult_fits (by rwa [b32Encode_length]))

/-! ### The obligations -/

/-- Settles O46: `decodeFn_assemble` for the text that the success of `ENCODE` fixes, and the fields of the byte that
`make_version` built. -/
theorem decodeReturnsWhatEncodeWasGiven : Obligations.DecodeReturnsWhatEncodeWasGiven := by
  intro s s' t p h text ty hp hty hh hfit hexec hst htext htext'
  obtain ⟨hvalid, htype, sc, g, hlen, hg, rfl⟩ :=
    (encodeFn_ok_iff ..).mp (encodeFn_of_exec_encode hp hty hh hexec hst htext)
  obtain ⟨hfield, hsc, hsame⟩ := version_fields ty sc (htype.trans typeMax_bounds.2)
  have hdecode := decodeFn_assemble Config.generator hvalid hg (by rwa [hsc])
  rw [hfield, hsc] at hdecode
  have hbound := lenOf_bounds sc
  have hdata := pfxMax_add_le_dataMax
  refine ⟨sc, BitVec.ofNat 7 h.length, hlen.symm, ?_, ?_, hsame⟩
  · rw [BitVec.toNat_ofNat, Nat.mod_eq_of_lt (by omega)]
  · rw [exec_decode_ok htext' hdecode hfit (by simp only; omega)]
    simp [decodedResults]

/-- Settles O42: the text fits its buffer whatever the supported length, so `ENCODE` delivers it. -/
theorem encodeDeliversTheAddressText : Obligations.EncodeDeliversTheAddressText := by
  refine ⟨rfl, fun s p h t sc hp ht hh hvalid hfit hlen htype => ?_, fun s s' hexec => ?_⟩
  · obtain ⟨g, hg, -⟩ := regroup_pad 5 (by decide) (((t <<< 3) ||| sc.setWidth 8) :: h)
    have henc := (encodeFn_ok_iff Config.generator ..).mpr ⟨hvalid, htype, sc, g, hlen, hg, rfl⟩
    refine ⟨g, computeChecksum Config.generator p g, hg, rfl, ?_, ?_⟩
    · exact exec_encode_ok hp ht hh henc (assemble_fits hfit (dataGroups_length_le hlen hg) _)
    · rw [← dataGroups_length hg]
      exact assemble_length Config.generator p g
  · obtain hst | ⟨e, he, hst⟩ := exec_encode_status hexec
    · simp [hst]
    · have hcodes : ∀ e ∈ errorSet .encode,
          errorStatus e ∈ ([0x80, 0x81, 0x82, 0x89, 0x8A] : List (BitVec 8)) := by decide
      exact hst ▸ hcodes e he

/-- Settles O43: the first failing check is the error of `encode_fn`. -/
theorem encodeChecksInOrder : Obligations.EncodeChecksInOrder := by
  intro s p h t hp ht hh
  have hpfx {e} (he : checkPfx p = .error e) := exec_encode_error hp ht hh ((encodeFn_error ..).mpr (.inl he))
  have hver {e} (hvalid : ValidPfx p) (he : makeVersion Config.typeMax t h.length = .error e) :=
    exec_encode_error hp ht hh ((encodeFn_error ..).mpr (.inr ⟨(checkPfx_ok p).mpr hvalid, he⟩))
  refine ⟨fun hempty => ?_, fun hne hbad => ?_, fun hvalid hlen => ?_, fun hvalid hlen htype => ?_⟩
  · exact hpfx ((checkPfx_error ..).mpr (.inl ⟨rfl, hempty⟩))
  · exact hpfx ((checkPfx_error ..).mpr (.inr ⟨rfl, hne, hbad⟩))
  · exact hver hvalid ((makeVersion_error ..).mpr (.inl ⟨rfl, (not_mem_lenTable_iff _).mp hlen⟩))
  · exact hver hvalid ((makeVersion_error ..).mpr (.inr ⟨rfl, (mem_lenTable_iff _).mp hlen, htype⟩))

/-- Settles O44: the layout of an assembled text; its first payload character is that of the version byte's type
field. -/
theorem encodedTextHasTheStatedShape : Obligations.EncodedTextHasTheStatedShape := by
  intro G typeMax p h text t hmax he
  obtain ⟨hvalid, htype, sc, g, hlen, hg, rfl⟩ := (encodeFn_ok_iff ..).mp he
  obtain ⟨hfield, -, -⟩ := version_fields t sc (htype.trans hmax)
  refine ⟨?_, assemble_count_separator hvalid G g, ?_, fun b hb => ?_, ?_⟩
  · rw [assemble_length, dataGroups_length hg]
  · rw [assemble_eq, List.take_left]
  · rw [assemble_drop] at hb
    obtain ⟨v, -, rfl⟩ := List.mem_map.mp hb
    exact alphaChar_mem v
  · obtain ⟨rest, rfl⟩ := regroup_bytes_head hg
    simp [assemble_eq, b32Encode, hfield]

/-- Settles O45: prefix, version byte and data groups do not depend on the constants. -/
theorem encodedTextDependsOnConstantsOnlyInItsTail : Obligations.EncodedTextDependsOnConstantsOnlyInItsTail := by
  intro G G' typeMax p h text t he
  obtain ⟨hp, ver, g, hver, hg, rfl⟩ := (encodeFn_ok ..).mp he
  have hlen : (assemble G' p g).length = (assemble G p g).length := by rw [assemble_length, assemble_length]
  refine ⟨assemble G' p g, (encodeFn_ok ..).mpr ⟨hp, ver, g, hver, hg, rfl⟩, hlen, ?_⟩
  rw [assemble_take, ← hlen, assemble_take]

/-- Settles O47: each command's answer on the operands that the script writes. -/
theorem primitivesComposeToEncode : Obligations.PrimitivesComposeToEncode := by
  intro s p h text t hfit he
  obtain ⟨-, ver, g, hver, hg, rfl⟩ := (encodeFn_ok ..).mp he
  obtain ⟨sc, hlen, -, -⟩ := (makeVersion_ok ..).mp hver
  have hmax := dataGroups_length_le hlen hg
  have hdata := pfxMax_add_le_dataMax
  have hbyte : (BitVec.ofNat 8 h.length).toNat = h.length := by
    have := lenOf_bounds sc
    rw [BitVec.toNat_ofNat, Nat.mod_eq_of_lt (by omega)]
  refine ⟨_, _, _, _, ver, g, _, _, exec_mkver_ok rfl rfl (by rwa [hbyte]), rfl, exec_r8to5_ok rfl hg (by omega), rfl,
    exec_cksum_eq rfl rfl, rfl, exec_b32enc_ok rfl ?_, rfl, rfl⟩
  rw [List.length_append, explode_length]
  omega

end Sys2Proof.Machine

/-! ## The decoder (44_decode.md)

The ways `decode_fn` fails, one a gate; what the decoder makes of groups laid out as an address, and of one changed
group; then the statements of this family. -/

namespace Sys2Proof.Machine

/-! ### The gates (R110, R112 to R119) -/

/-- The first gate that `a` does not pass, and its error: each constructor has the gates before it passed. -/
inductive DecodeFails (G : Generators) : List Byte → BlockError → Prop
  | split {a : List Byte} {e : BlockError} : splitAddress a = .error e → DecodeFails G a e
  | pfx {p x : List Byte} {e : BlockError} : separator ∉ p → separator ∉ x → checkPfx p = .error e →
      DecodeFails G (p ++ separator :: x) e
  | text {p x : List Byte} {e : BlockError} : ValidPfx p → separator ∉ x → b32Decode x = .error e →
      DecodeFails G (p ++ separator :: x) e
  | payload {p x : List Byte} {g : List Group} {e : BlockError} : ValidPfx p → Spells x g →
      checkPayload G p g = .error e → DecodeFails G (p ++ separator :: x) e
  | padding {p x : List Byte} {g : List Group} {e : BlockError} : ValidPfx p → Spells x g →
      checkPayload G p g = .ok () →
      (regroup 8 false (g.take (g.length - 8)) : Except BlockError (List Byte)) = .error e →
      DecodeFails G (p ++ separator :: x) e
  | fields {p x b : List Byte} {g : List Group} {e : BlockError} : ValidPfx p → Spells x g →
      checkPayload G p g = .ok () → regroup 8 false (g.take (g.length - 8)) = .ok b → extractFields p b = .error e →
      DecodeFails G (p ++ separator :: x) e

theorem except_bind_eq_error {α β : Type} {x : Except BlockError α} {f : α → Except BlockError β} {e : BlockError} :
    x.bind f = .error e ↔ x = .error e ∨ ∃ a, x = .ok a ∧ f a = .error e := by
  cases x <;> simp [Except.bind]

theorem decodeParts_eq (G : Generators) (p x : List Byte) :
    decodeParts G p x = (checkPfx p).bind fun _ => (b32Decode x).bind fun g => (checkPayload G p g).bind fun _ =>
      (regroup 8 false (g.take (g.length - 8)) : Except BlockError (List Byte)).bind fun b => extractFields p b := rfl

/-- R110: the first gate that fails ends the decoder with that gate's error, and nothing else is an error. -/
theorem decodeFn_error (G : Generators) (a : List Byte) (e : BlockError) :
    decodeFn G a = .error e ↔ DecodeFails G a e := by
  constructor
  · intro h
    rw [decodeFn_eq, except_bind_eq_error] at h
    obtain hsplit | ⟨⟨p, x⟩, hsplit, h⟩ := h
    · exact .split hsplit
    obtain ⟨rfl, hp, hx⟩ := (splitAddress_ok a p x).mp hsplit
    simp only [decodeParts_eq, except_bind_eq_error] at h
    obtain hpfx | ⟨⟨⟩, hpfx, htext | ⟨g, htext, hpay | ⟨⟨⟩, hpay, hpad | ⟨b, hpad, hfields⟩⟩⟩⟩ := h
    · exact .pfx hp hx hpfx
    all_goals have hvalid := (checkPfx_ok p).mp hpfx
    · exact .text hvalid hx htext
    all_goals have hspells := (b32Decode_ok x g).mp htext
    · exact .payload hvalid hspells hpay
    · exact .padding hvalid hspells hpay hpad
    · exact .fields hvalid hspells hpay hpad hfields
  · intro h
    cases h with
    | split h => rw [decodeFn_eq, h]; rfl
    | pfx hp hx h => rw [decodeFn_append G _ _ hp hx, decodeParts_eq, h]; rfl
    | text hp hx h =>
      rw [decodeFn_append G _ _ hp.separator_not_mem hx, decodeParts_eq, (checkPfx_ok _).mpr hp, h]
      rfl
    | payload hp hx h =>
      rw [decodeFn_append G _ _ hp.separator_not_mem hx.separator_not_mem, decodeParts_spells G _ _ _ hp hx, h]
      rfl
    | padding hp hx h h' =>
      rw [decodeFn_append G _ _ hp.separator_not_mem hx.separator_not_mem, decodeParts_spells G _ _ _ hp hx, h, h']
      rfl
    | fields hp hx h h' h'' =>
      rw [decodeFn_append G _ _ hp.separator_not_mem hx.separator_not_mem, decodeParts_spells G _ _ _ hp hx, h, h']
      exact h''

/-- R130: no error but the decoder's nine. -/
theorem decodeFn_error_mem {G : Generators} {a : List Byte} {e : BlockError} (h : decodeFn G a = .error e) :
    e ∈ errorSet .decode := by
  cases (decodeFn_error G a e).mp h with
  | split h =>
    obtain ⟨rfl, -⟩ := (splitAddress_error ..).mp h
    simp [errorSet]
  | pfx _ _ h => obtain ⟨rfl, -⟩ | ⟨rfl, -⟩ := (checkPfx_error ..).mp h <;> simp [errorSet]
  | text _ _ h => obtain ⟨rfl, -⟩ | ⟨rfl, -⟩ := (b32Decode_error ..).mp h <;> simp [errorSet]
  | payload _ _ h => obtain ⟨rfl, -⟩ | ⟨rfl, -⟩ := (checkPayload_error ..).mp h <;> simp [errorSet]
  | padding _ _ _ h =>
    obtain ⟨rfl, -⟩ := (regroup_noPad_error ..).mp h
    simp [errorSet]
  | fields _ _ _ _ h =>
    obtain ⟨rfl, -⟩ := (extractFields_error ..).mp h
    simp [errorSet]

/-- Gate 7 on a version byte that implies another length than the hash has (R119). -/
theorem extractFields_wrong_length (p : List Byte) {v : Byte} {h : List Byte}
    (hlen : h.length ≠ lenOf (v.extractLsb' 0 3)) :
    extractFields p (v :: h) = .error .hashLengthMismatch := by
  refine (extractFields_error ..).mpr ⟨rfl, ?_⟩
  rintro v' h' heq
  obtain ⟨rfl, rfl⟩ := List.cons.inj heq
  exact hlen

/-! ### Success on a text that is written as prefix, separator, payload -/

theorem address_eq (p x : List Byte) : p ++ [0x3A] ++ x = p ++ separator :: x := (List.append_cons ..).symm

theorem verifyChecksum_iff_verifies (p : List Byte) (g : List Group) :
    verifyChecksum Config.generator p g = true ↔ Verifies p g := beq_iff_eq

theorem decodeFn_append_ok (G : Generators) (p x : List Byte) (d : Decoded) :
    decodeFn G (p ++ [0x3A] ++ x) = .ok d ↔ ValidPfx p ∧ ∃ g v h, Spells x g ∧ 9 ≤ g.length ∧
      verifyChecksum G p g = true ∧ regroup 8 false (g.take (g.length - 8)) = .ok (v :: h) ∧
      h.length = lenOf (v.extractLsb' 0 3) ∧ d = ⟨p, v, v.extractLsb' 3 5, v.extractLsb' 0 3, h.length, h⟩ := by
  rw [address_eq, decodeFn_ok]
  constructor
  · rintro ⟨p', x', g, v, h, ha, hp, hx, hrest⟩
    obtain ⟨rfl, -, rfl⟩ :=
      (List.append_cons_inj_of_notMem hp.separator_not_mem hx.separator_not_mem).mp ha.symm
    exact ⟨hp, g, v, h, hx, hrest⟩
  · rintro ⟨hp, g, v, h, hx, hrest⟩
    exact ⟨p, x, g, v, h, rfl, hp, hx, hrest⟩

/-! ### `DECODE` (R111) -/

theorem exec_decode_error {s : State} {a : List Byte} {e : BlockError} (ha : s.op.bytes = .written a)
    (h : decodeFn Config.generator a = .error e) :
    exec .decode s = .next { s with res := Results.invalid, st := errorStatus e } :=
  exec_error _ s e (by simp [commandOutcome, ha, h, Except.map])

theorem exec_decode_fails {s : State} {a : List Byte} {e : BlockError} (ha : s.op.bytes = .written a)
    (h : DecodeFails Config.generator a e) :
    exec .decode s = .next { s with res := Results.invalid, st := errorStatus e } :=
  exec_decode_error ha ((decodeFn_error ..).mpr h)

theorem exec_b32dec_ok {s : State} {x : List Byte} {g : List Group} (hx : s.op.bytes = .written x) (hg : Spells x g)
    (hfit : g.length ≤ Config.dataMax) :
    exec .b32dec s = .next { s with res := { Results.invalid with grps := some g }, st := 0x80 } :=
  exec_ok _ s _ (by simp [commandOutcome, hx, (b32Decode_ok x g).mpr hg, Except.map]) (grpsResult_fits hfit)

theorem exec_verify_eq {s : State} {p : List Byte} {g : List Group} (hp : s.op.pfx = .written p)
    (hg : s.op.grps = .written g) :
    exec .verify s = .next { s with
      res := { Results.invalid with
        ck := some (polymod Config.generator (ckInput p g))
        flag := some (verifyChecksum Config.generator p g) }
      st := 0x80 } :=
  exec_ok _ s _ (by simp [commandOutcome, hp, hg, verifyChecksum]) (checksumResults_fit ..)

/-- The status `DECODE` ends with, whatever its operand. -/
theorem exec_decode_status {s s' : State} (hexec : exec .decode s = .next s') :
    s'.st = 0x80 ∨ ∃ e ∈ errorSet .decode, s'.st = errorStatus e := by
  obtain ⟨r, -, -, rfl⟩ | ⟨e, ho, rfl⟩ := exec_eq_next .decode s s' hexec
  · exact .inl successStatus_eq
  · obtain ⟨a, -, ho⟩ := Option.map_eq_some_iff.mp ho
    exact .inr ⟨e, decodeFn_error_mem (except_map_eq_error ho), rfl⟩

/-! ### Superfluous zero groups (R80 corner case b, R122) -/

/-- The decoder on an assembled text: what gates 6 and 7 make of the data groups. -/
theorem decodeFn_assemble_eq (G : Generators) {p : List Byte} {g : List Group} (hp : ValidPfx p) (hg : 1 ≤ g.length) :
    decodeFn G (assemble G p g) =
      (regroup 8 false g : Except BlockError (List Byte)).bind fun b => extractFields p b := by
  have hpay : checkPayload G p (g ++ explode (computeChecksum G p g)) = .ok () := by
    refine (checkPayload_ok ..).mpr ⟨?_, computedChecksumVerifies G p g⟩
    rw [List.length_append, explode_length]
    omega
  have hspells := spells_b32Encode (g ++ explode (computeChecksum G p g))
  rw [assemble_eq, decodeFn_append G p _ hp.separator_not_mem hspells.separator_not_mem,
    decodeParts_spells G p _ _ hp hspells, hpay, List.length_append, explode_length, Nat.add_sub_cancel, List.take_left]
  rfl

/-- `n` zero groups more than a byte sequence fills give it back with the whole bytes of zero that the padding and these
groups hold. -/
theorem regroup_superfluous {b : List Byte} {g : List Group} (hg : regroup 5 true b = .ok g) (n : Nat) :
    regroup 8 false (g ++ List.replicate n 0) =
      .ok (b ++ List.replicate ((5 * (g.length + n) - 8 * b.length) / 8) (0 : Byte)) := by
  obtain ⟨g', hg', k, -, hS⟩ := regroup_pad 5 (by decide) b
  obtain rfl := Except.ok.inj (hg.symm.trans hg')
  have hlen := congrArg List.length hS
  simp only [bitStream_length, List.length_append, List.length_replicate] at hlen
  have hzeros : 5 * (g.length + n) - 8 * b.length = k + 5 * n := by omega
  rw [hzeros]
  refine (regroup_noPad_ok 8 (by decide) _ _).mpr ⟨(k + 5 * n) % 8, Nat.mod_lt _ (by decide), ?_⟩
  rw [bitStream_append, bitStream_append, hS, bitStream_replicate_zero, bitStream_replicate_zero, List.append_assoc,
    List.append_assoc, List.replicate_append_replicate, List.replicate_append_replicate, Nat.div_add_mod]

/-- A hash that implies its length decodes over `n` zero groups too many if they fill no byte with the padding. -/
theorem decodeFn_superfluous (G : Generators) {p h : List Byte} {v : Byte} {g : List Group} (hp : ValidPfx p)
    (hg : regroup 5 true (v :: h) = .ok g) (hlen : h.length = lenOf (v.extractLsb' 0 3)) (n : Nat) :
    decodeFn G (assemble G p (g ++ List.replicate n 0)) =
      if 5 * (g.length + n) - 8 * (h.length + 1) < 8 then
        .ok ⟨p, v, v.extractLsb' 3 5, v.extractLsb' 0 3, h.length, h⟩
      else .error .hashLengthMismatch := by
  have hsize := dataGroups_length hg
  rw [decodeFn_assemble_eq G hp (by rw [List.length_append]; omega), regroup_superfluous hg, List.length_cons,
    List.cons_append, Except.bind]
  split
  case isTrue hfew =>
    rw [Nat.div_eq_of_lt hfew, List.replicate_zero, List.append_nil]
    exact (extractFields_ok ..).mpr ⟨v, h, rfl, hlen, rfl⟩
  case isFalse hmany =>
    apply extractFields_wrong_length
    rw [List.length_append, List.length_replicate, ← hlen]
    omega

/-! ### One changed character (R70 laws 3 and 4, R121) -/

/-- Of two tails of eight groups that verify behind the same groups, one is the other (R70 law 3). -/
theorem verifyChecksum_tail_unique {G : Generators} {p : List Byte} {g e e' : List Group} (he : e.length = 8)
    (he' : e'.length = 8) (h : verifyChecksum G p (g ++ e) = true) (h' : verifyChecksum G p (g ++ e') = true) :
    e = e' :=
  ((verifyChecksum_tail G p g e he).mp h).trans ((verifyChecksum_tail G p g e' he').mp h').symm

/-- A change among the last eight groups makes a verifying sequence fail, for every value of the constants. -/
theorem verifyChecksum_changed_in_tail {G : Generators} {p : List Byte} {x y : List Group} {c c' : Group}
    (hc : c ≠ c') (hy : y.length < 8) (hlen : 8 ≤ (x ++ c :: y).length) (h : verifyChecksum G p (x ++ c :: y) = true) :
    verifyChecksum G p (x ++ c' :: y) = false := by
  rw [Bool.eq_false_iff]
  intro h'
  rw [List.length_append, List.length_cons] at hlen
  rw [← List.take_append_drop (x.length - (7 - y.length)) x, List.append_assoc] at h h'
  have htail : ∀ c, (x.drop (x.length - (7 - y.length)) ++ c :: y).length = 8 := fun c => by
    rw [List.length_append, List.length_drop, List.length_cons]
    omega
  have heq := verifyChecksum_tail_unique (htail c) (htail c') h h'
  exact hc (List.cons.inj (List.append_cancel_left heq)).1

/-- A character replaced in a text is a group replaced in what the text spells. -/
theorem Spells.replace {x y : List Byte} {a b : Byte} {g : List Group} (h : Spells (x ++ a :: y) g)
    (hb : foldCase b ∈ alphabet) (hab : foldCase b ≠ foldCase a) (hm : ¬ MixedText (x ++ b :: y)) :
    ∃ gx gy c c', g = gx ++ c :: gy ∧ gy.length = y.length ∧ c ≠ c' ∧ Spells (x ++ b :: y) (gx ++ c' :: gy) := by
  obtain ⟨-, hfold⟩ := h
  rw [List.map_append, List.map_cons] at hfold
  obtain ⟨gx, g', rfl, hx, hg'⟩ := List.map_eq_append_iff.mp hfold.symm
  obtain ⟨c, gy, rfl, hc, hy⟩ := List.map_eq_cons_iff.mp hg'
  obtain ⟨c', hc'⟩ := Option.ne_none_iff_exists'.mp (mt (alphaVal_eq_none _).mp (not_not.mpr hb))
  have hchar := alphaChar_of_alphaVal hc'
  refine ⟨gx, gy, c, c', rfl, by simpa using congrArg List.length hy, ?_, hm, ?_⟩
  · rintro rfl
    exact hab (hchar.symm.trans hc)
  · simp [hx, hy, hchar]

/-! ### The obligations -/

/-- Settles O49, by the errors of the split and of the prefix check. -/
theorem decodeGateOneSplitsAndChecksThePrefix : Obligations.DecodeGateOneSplitsAndChecksThePrefix := by
  intro s a ha
  refine ⟨fun hcount => exec_decode_fails ha (.split ((splitAddress_error ..).mpr ⟨rfl, hcount⟩)), ?_⟩
  rintro p x rfl hp hx
  rw [address_eq] at ha
  refine ⟨fun hempty => ?_, fun hne hbad => ?_⟩
  · exact exec_decode_fails ha (.pfx hp hx ((checkPfx_error ..).mpr (.inl ⟨rfl, hempty⟩)))
  · exact exec_decode_fails ha (.pfx hp hx ((checkPfx_error ..).mpr (.inr ⟨rfl, hne, hbad⟩)))

/-- Settles O50, by the errors of `b32_decode` and of the length check. -/
theorem decodeGatesTwoToFour : Obligations.DecodeGatesTwoToFour := by
  intro s p x ha hp hx
  rw [address_eq] at ha
  refine ⟨fun hm => ?_, fun hm hbad => ?_, fun g hg hshort => ?_⟩
  · exact exec_decode_fails ha (.text hp hx ((b32Decode_error ..).mpr (.inl ⟨rfl, hm⟩)))
  · exact exec_decode_fails ha (.text hp hx ((b32Decode_error ..).mpr (.inr ⟨rfl, hm, hbad⟩)))
  · exact exec_decode_fails ha (.payload hp hg ((checkPayload_error ..).mpr (.inl ⟨rfl, hshort⟩)))

/-- Settles O51, by the errors of the checksum, of `regroup` without padding and of the field extraction. -/
theorem decodeGatesFiveToSeven : Obligations.DecodeGatesFiveToSeven := by
  intro s p x g ha hp hx h9
  rw [address_eq] at ha
  have hpay (hv : Verifies p g) : checkPayload Config.generator p g = .ok () :=
    (checkPayload_ok ..).mpr ⟨h9, (verifyChecksum_iff_verifies p g).mpr hv⟩
  refine ⟨fun hv => ?_, fun hv hnz => ?_, fun hv hb => ?_, fun v h hv hb hlen => ?_⟩
  · have hfail : verifyChecksum Config.generator p g = false :=
      Bool.eq_false_iff.mpr (mt (verifyChecksum_iff_verifies p g).mp hv)
    exact exec_decode_fails ha (.payload hp hx ((checkPayload_error ..).mpr (.inr ⟨rfl, h9, hfail⟩)))
  · have hlen : (g.take (g.length - 8)).length = g.length - 8 := List.length_take_of_le (Nat.sub_le _ _)
    refine exec_decode_fails ha (.padding hp hx (hpay hv) ((regroup_noPad_error_iff (by decide) _).mpr ?_))
    rwa [hlen]
  · exact exec_decode_fails ha (.fields hp hx (hpay hv) hb ((extractFields_error ..).mpr ⟨rfl, nofun⟩))
  · exact exec_decode_fails ha (.fields hp hx (hpay hv) hb (extractFields_wrong_length p hlen))

/-- Settles O48: all gates pass, and the hash is within capacity (R7, R51). -/
theorem decodeDeliversTheFields : Obligations.DecodeDeliversTheFields := by
  refine ⟨rfl, fun s p x h v g ha hp hfit hx h9 hv hb hlen => ?_, fun s t hexec => ?_⟩
  · have hdecode := (decodeFn_append_ok Config.generator p x _).mpr
      ⟨hp, g, v, h, hx, h9, (verifyChecksum_iff_verifies p g).mpr hv, hb, hlen, rfl⟩
    have hbound := lenOf_bounds (v.extractLsb' 0 3)
    have hdata := pfxMax_add_le_dataMax
    rw [exec_decode_ok ha hdecode hfit (by simp only; omega)]
    simp [decodedResults]
  · obtain hst | ⟨e, he, hst⟩ := exec_decode_status hexec
    · simp [hst]
    · have hcodes : ∀ e ∈ errorSet .decode, errorStatus e ∈
          ([0x80, 0x81, 0x82, 0x83, 0x84, 0x85, 0x86, 0x87, 0x88, 0x89] : List (BitVec 8)) := by decide
      exact hst ▸ hcodes e he

/-- Settles O52: the padding of a hash of 20, 24, 32, 40 or 64 bytes leaves room for a zero group below a whole byte,
that of 28, 48 or 56 bytes does not, and no padding leaves room for two (`decodeFn_superfluous`). -/
theorem superfluousZeroGroupDecodesToTheSameFields : Obligations.SuperfluousZeroGroupDecodesToTheSameFields := by
  intro G typeMax p h t ver g hmax hp hver hg
  obtain ⟨sc, hlen, ht, rfl⟩ := (makeVersion_ok ..).mp hver
  obtain ⟨-, hsc, -⟩ := version_fields t sc (ht.trans hmax)
  rw [← hsc] at hlen
  have hsize := dataGroups_length hg
  have hzeros := decodeFn_superfluous G hp hg hlen
  refine ⟨_, decodeFn_assemble G hp hg hlen, rfl, rfl, rfl, fun heq => ?_, fun hmem => ?_, fun hmem => ?_, ?_⟩
  · simpa using congrArg List.length heq
  · refine (hzeros 1).trans (if_pos ?_)
    simp only [List.mem_cons, List.not_mem_nil, or_false] at hmem
    omega
  · refine (hzeros 1).trans (if_neg ?_)
    simp only [List.mem_cons, List.not_mem_nil, or_false] at hmem
    omega
  · refine (hzeros 2).trans (if_neg ?_)
    omega

/-- Settles O53: each command's answer on the operands that the script writes. -/
theorem primitivesComposeToDecode : Obligations.PrimitivesComposeToDecode := by
  intro s p x d hpfit hxfit hsep hd
  obtain ⟨hp, g, v, h, hx, h9, hv, hb, hlen, rfl⟩ := (decodeFn_append_ok ..).mp hd
  have hgfit : g.length ≤ Config.dataMax := hx.length ▸ hxfit
  have hbytes : (v :: h).length ≤ Config.dataMax := by
    have := (regroup_noPad_natOf (by decide) _ _ hb).1
    rw [List.length_take] at this
    omega
  have hbyte : (BitVec.ofNat 8 h.length).toNat = h.length := by
    have := lenOf_bounds (v.extractLsb' 0 3)
    rw [BitVec.toNat_ofNat, Nat.mod_eq_of_lt (by omega)]
  refine ⟨_, _, _, _, g, v, h, exec_b32dec_ok rfl hx hgfit, rfl, h9, exec_verify_eq rfl rfl, congrArg some hv,
    exec_r5to8_ok rfl hb hbytes, rfl, exec_verchk_ok rfl rfl (hbyte.trans hlen), ?_, ?_, ?_, rfl, rfl, rfl⟩ <;>
    simp [versionResults, hlen]

/-- Settles O54, by the errors the decoder and the validator have; the extraction tests the size class alone. -/
theorem decoderNeverRejectsAType : Obligations.DecoderNeverRejectsAType := by
  refine ⟨fun G a h => ?_, fun v n => ?_, fun v w p h hsc => ?_⟩
  · have hmem := decodeFn_error_mem h
    simp [errorSet] at hmem
  · rw [checkVersion_eq]
    split <;> simp
  · simp only [extractFields, checkVersion_eq, hsc]
    split <;> rfl

/-- Settles O55: the changed group is among the last eight, where one tail alone verifies, or the constants are assumed
to detect it. -/
theorem oneChangedCharacterIsChecksumMismatch : Obligations.OneChangedCharacterIsChecksumMismatch := by
  intro G p x y a b d hd hb hab hm hG
  obtain ⟨hp, g, v, h, hx, h9, hv, -⟩ := (decodeFn_append_ok ..).mp hd
  obtain ⟨gx, gy, c, c', rfl, hgy, hc, hx'⟩ := hx.replace hb hab hm
  have hfail : verifyChecksum G p (gx ++ c' :: gy) = false := by
    obtain hdetects | htail := hG
    · exact hdetects p gx gy c c' hc hv
    · exact verifyChecksum_changed_in_tail hc (hgy ▸ htail) (by omega) hv
  have h9' : 9 ≤ (gx ++ c' :: gy).length := by simpa using h9
  have herror : decodeFn G (p ++ [0x3A] ++ (x ++ b :: y)) = .error .checksumMismatch := by
    rw [address_eq, decodeFn_error]
    exact .payload hp hx' ((checkPayload_error ..).mpr (.inr ⟨rfl, h9', hfail⟩))
  refine ⟨herror, ?_⟩
  rintro rfl s hs
  exact exec_decode_error hs herror

end Sys2Proof.Machine

/-! ## How a command ends (60_exceptions.md)

Which errors a command's pseudocode can answer, one lemma per shared function; then the statement of this family. -/

namespace Sys2Proof.Machine

/-! ### The errors of a command (R46, R130) -/

/-- Regrouping with padding raises nothing; without it, `NonZeroPadding` alone (R80). -/
theorem regroup_error_mem {fw tw : Nat} (h0 : 0 < tw) {pad : Bool} {x : List (BitVec fw)} {e : BlockError}
    (h : (regroup tw pad x : Except BlockError (List (BitVec tw))) = .error e) :
    e ∈ if pad then [] else [BlockError.nonZeroPadding] := by
  cases pad with
  | true =>
    obtain ⟨g, hg, -⟩ := regroup_pad tw h0 x
    cases hg.symm.trans h
  | false =>
    obtain ⟨rfl, -⟩ := (regroup_noPad_error ..).mp h
    exact List.mem_singleton_self _

theorem makeVersion_error_mem {typeMax n : Nat} {t : Byte} {e : BlockError} (h : makeVersion typeMax t n = .error e) :
    e ∈ errorSet .mkver := by
  obtain ⟨rfl, -⟩ | ⟨rfl, -⟩ := (makeVersion_error ..).mp h <;> simp [errorSet]

theorem checkVersion_error_mem {v : Byte} {n : Nat} {e : BlockError} (h : checkVersion v n = .error e) :
    e ∈ errorSet .verchk := by
  rw [checkVersion_eq] at h
  split at h
  · cases h
  · obtain rfl := Except.error.inj h
    simp [errorSet]

theorem b32Decode_error_mem {x : List Byte} {e : BlockError} (h : b32Decode x = .error e) : e ∈ errorSet .b32dec := by
  obtain ⟨rfl, -⟩ | ⟨rfl, -⟩ := (b32Decode_error ..).mp h <;> simp [errorSet]

/-- A command raises no error but those of its row of R46: the counterpart of `commandOutcome_delivers`. -/
theorem commandOutcome_error_mem (i : Instr) (o : Operands) (e : BlockError)
    (h : commandOutcome i o = some (.error e)) : e ∈ errorSet i := by
  cases i <;> simp only [commandOutcome, Option.bind_eq_some_iff, Option.map_eq_some_iff] at h
  case polymod => obtain ⟨g, -, ⟨⟩⟩ := h
  case cksum => obtain ⟨p, -, g, -, ⟨⟩⟩ := h
  case verify => obtain ⟨p, -, g, -, ⟨⟩⟩ := h
  case b32enc => obtain ⟨g, -, ⟨⟩⟩ := h
  case r8to5 pad =>
    obtain ⟨b, -, h⟩ := h
    exact regroup_error_mem (by decide) (except_map_eq_error h)
  case r5to8 pad =>
    obtain ⟨g, -, h⟩ := h
    exact regroup_error_mem (by decide) (except_map_eq_error h)
  case mkver =>
    obtain ⟨t, -, n, -, h⟩ := h
    exact makeVersion_error_mem (except_map_eq_error h)
  case verchk =>
    obtain ⟨v, -, n, -, h⟩ := h
    exact checkVersion_error_mem (except_map_eq_error h)
  case b32dec =>
    obtain ⟨x, -, h⟩ := h
    exact b32Decode_error_mem (except_map_eq_error h)
  case encode =>
    obtain ⟨p, -, t, -, hash, -, h⟩ := h
    exact encodeFn_error_mem (except_map_eq_error h)
  case decode =>
    obtain ⟨a, -, h⟩ := h
    exact decodeFn_error_mem (except_map_eq_error h)

/-! ### The obligation -/

/-- Settles O10: `finish` is the only end of a command, its results are those of the command's row and so is its
error. -/
theorem commandEndsInOneOfTwoWays : Obligations.CommandEndsInOneOfTwoWays := by
  intro i s t h
  obtain ⟨r, hr, -, rfl⟩ | ⟨e, he, rfl⟩ := exec_eq_next i s t h
  · exact ⟨rfl, rfl, rfl, .inl ⟨successStatus_eq, (commandOutcome_delivers i s.op r hr).writes⟩⟩
  · exact ⟨rfl, rfl, rfl, .inr ⟨e, commandOutcome_error_mem i s.op e he, errorStatus_eq e, rfl⟩⟩

end Sys2Proof.Machine

/-! ## Reset and hazards (70_reset_and_hazards.md)

The two ways `exec` is refused and the grounds of every refused host action, each said once; that what an unwritten
operand holds is never seen; which results overflow; then the statements of this family. -/

namespace Sys2Proof.Machine

/-! ### The refusals of a command (R162, R163) -/

theorem firstUnwritten_eq_none_iff (i : Instr) (o : Operands) :
    firstUnwritten i o = none ↔ ∀ r ∈ readSet i, o.written r = true := by
  simp [firstUnwritten]

/-- A command has an outcome exactly where it reads no unwritten operand (R162). -/
theorem commandOutcome_isSome_iff (i : Instr) (o : Operands) :
    (commandOutcome i o).isSome = true ↔ firstUnwritten i o = none := by
  rw [commandOutcome_isSome, firstUnwritten_eq_none_iff, List.all_eq_true]

theorem commandOutcome_eq_none {i : Instr} {o : Operands} {r : OpReg} (h : firstUnwritten i o = some r) :
    commandOutcome i o = none := by
  rw [← Option.not_isSome_iff_eq_none, commandOutcome_isSome_iff, h]
  nofun

theorem exists_firstUnwritten_iff (i : Instr) (o : Operands) :
    (∃ r, firstUnwritten i o = some r) ↔ ∃ r ∈ readSet i, o.written r = false := by
  rw [← Option.isSome_iff_exists, firstUnwritten, List.find?_isSome]
  simp

/-- A command is refused for an unwritten operand it reads, or at its end for a result over capacity, and on no other
ground: the counterpart of `exec_eq_next`. -/
theorem exec_eq_refused (i : Instr) (s : State) (x : Refusal) :
    exec i s = .refused x ↔
      (∃ r, firstUnwritten i s.op = some r ∧ x = .unwrittenOperand r) ∨
      ∃ r reg, commandOutcome i s.op = some (.ok r) ∧ r.overCapacity = some reg ∧ x = .resultOverCapacity reg := by
  obtain ⟨outcome, ho, he⟩ | ⟨hn, r, hr, he⟩ := exec_eq i s
  · have hw : firstUnwritten i s.op = none := (commandOutcome_isSome_iff i s.op).mp (by simp [ho])
    rw [he, finish_eq_refused]
    simp [ho, hw]
  · rw [he]
    simp [hn, hr, eq_comm]

theorem exec_refused_unwritten_iff (i : Instr) (s : State) (r : OpReg) :
    exec i s = .refused (.unwrittenOperand r) ↔ firstUnwritten i s.op = some r := by
  simp [exec_eq_refused, eq_comm]

theorem exec_refused_capacity_iff (i : Instr) (s : State) (x : ResReg) :
    exec i s = .refused (.resultOverCapacity x) ↔
      ∃ r, commandOutcome i s.op = some (.ok r) ∧ r.overCapacity = some x := by
  simp [exec_eq_refused, eq_comm]

/-! ### The status of a command that ends (R134, R136) -/

theorem errorStatus_done (e : BlockError) : (errorStatus e).getLsbD 7 = true := by cases e <;> rfl

/-- `DONE` is set by every command that ends. -/
theorem exec_done {i : Instr} {s t : State} (h : exec i s = .next t) : t.st.getLsbD 7 = true := by
  obtain ⟨r, -, -, rfl⟩ | ⟨e, -, rfl⟩ := exec_eq_next i s t h
  · simp
  · exact errorStatus_done e

/-- No command raises `IllegalCommand`: it is no error of any row of R46. -/
theorem illegalCommand_not_mem_errorSet (i : Instr) : BlockError.illegalCommand ∉ errorSet i := by
  cases i with
  | r8to5 pad | r5to8 pad => cases pad <;> decide
  | _ => decide

theorem exec_st_ne_illegalCommand {i : Instr} {s t : State} (h : exec i s = .next t) : t.st ≠ 0x8B := by
  obtain ⟨r, -, -, rfl⟩ | ⟨e, he, rfl⟩ := exec_eq_next i s t h
  · simp
  · intro hst
    obtain rfl := errorStatus_injective e .illegalCommand hst
    exact illegalCommand_not_mem_errorSet i (commandOutcome_error_mem i s.op _ he)

/-! ### The refusals of a host action (93_implementation_defined.md, treatment refuse) -/

theorem storeWithin_eq_refused {α : Type} (cap : Nat) (r : OpReg) (v : List α) (n : State) (x : Refusal) :
    storeWithin cap r v n = .refused x ↔ cap < v.length ∧ x = .writeOverCapacity r := by
  unfold storeWithin
  split
  · next hfit => simp [hfit.not_gt]
  · next hlong => simp [not_le.mp hlong, eq_comm]

theorem storeScalar_eq_refused (r : OpReg) (n : Nat) (next : Byte → State) (x : Refusal) :
    storeScalar r n next = .refused x ↔ 256 ≤ n ∧ x = .valueDoesNotFit r := by
  unfold storeScalar
  split
  · next hfit => simp [hfit.not_ge]
  · next hlarge => simp [not_lt.mp hlarge, eq_comm]

/-- A host write is refused for its value alone: for its width or its length, whatever the block holds (R59, R163). -/
theorem hostWrite_refused {r : OpReg} {v : Value} {s : State} {x : Refusal} (h : hostWrite r v s = .refused x) :
    (x = .valueDoesNotFit r ∨ x = .writeOverCapacity r) ∧ ∀ s', hostWrite r v s' = .refused x := by
  unfold hostWrite at h
  split at h
  case h_1 y | h_2 y | h_3 y =>
    obtain ⟨hy, rfl⟩ := (storeWithin_eq_refused ..).mp h
    exact ⟨.inr rfl, fun s' => (storeWithin_eq_refused ..).mpr ⟨hy, rfl⟩⟩
  case h_4 n | h_5 n | h_6 n =>
    obtain ⟨hn, rfl⟩ := (storeScalar_eq_refused ..).mp h
    exact ⟨.inl rfl, fun s' => hostWrite_misfit s' (decide_eq_true hn)⟩
  case h_7 =>
    obtain rfl := Host.Outcome.refused.inj h
    exact ⟨.inl rfl, fun s' => by simp [hostWrite, *]⟩

/-- The grounds on which a host action is refused: the counterpart of `perform_next`. -/
theorem perform_refused {a : HostAction} {s : State} {x : Refusal} (h : perform a s = .refused x) :
    (∃ r, x = .valueDoesNotFit r ∨ x = .writeOverCapacity r) ∨ x = .noHostVariable ∨ (∃ p, x = .writeReadOnly p) ∨
    (∃ b i, a = .command b ∧ Sys2Proof.decode b = .ok i ∧ exec i s = .refused x) ∨
    ∃ p, a = .read p ∧ portValue s p = .error x := by
  cases a with
  | write r v => exact .inl ⟨r, (hostWrite_refused h).1⟩
  | writeVar r =>
    simp only [perform, hostWriteVar] at h
    split at h
    · exact .inl ⟨r, (hostWrite_refused h).1⟩
    · exact .inr (.inl (Host.Outcome.refused.inj h).symm)
  | writeReadOnly p => exact .inr (.inr (.inl ⟨p, (Host.Outcome.refused.inj h).symm⟩))
  | command b =>
    cases hb : Sys2Proof.decode b with
    | ok i => exact .inr (.inr (.inr (.inl ⟨b, i, rfl, hb, (perform_command_legal s hb).symm.trans h⟩)))
    | error e => cases (runCommand_illegal s hb).symm.trans h
  | read p => exact .inr (.inr (.inr (.inr ⟨p, rfl, (perform_read_eq_refused p s x).mp h⟩)))
  | reset => cases h

theorem portValue_error_ne_unwrittenOperand (s : State) (p : Port) (r : OpReg) :
    portValue s p ≠ .error (.unwrittenOperand r) := by
  cases p with
  | op | res => simp only [portValue]; split <;> nofun
  | _ => nofun

theorem portValue_readUnwritten_iff (s : State) (p : Port) (r : OpReg) :
    portValue s p = .error (.readUnwrittenOperand r) ↔ p = .op r ∧ s.op.written r = false := by
  cases p with
  | op r' =>
    by_cases hr : r' = r
    · subst hr
      cases hw : s.op.written r' <;> simp [portValue, hw]
    · cases hw : s.op.written r' <;> simp [portValue, hw, hr]
  | res x => simp only [portValue]; split <;> simp
  | _ => simp [portValue]

theorem perform_refused_unwritten_iff (a : HostAction) (s : State) (r : OpReg) :
    perform a s = .refused (.unwrittenOperand r) ↔
      ∃ b i, a = .command b ∧ Sys2Proof.decode b = .ok i ∧ firstUnwritten i s.op = some r := by
  simp only [← exec_refused_unwritten_iff]
  constructor
  · intro h
    obtain ⟨r, h | h⟩ | h | ⟨p, h⟩ | h | ⟨p, -, h⟩ := perform_refused h
    · cases h
    · cases h
    · cases h
    · cases h
    · exact h
    · exact absurd h (portValue_error_ne_unwrittenOperand s p r)
  · rintro ⟨b, i, rfl, hb, h⟩
    exact (perform_command_legal s hb).trans h

theorem perform_refused_readUnwritten_iff (a : HostAction) (s : State) (r : OpReg) :
    perform a s = .refused (.readUnwrittenOperand r) ↔ a = .read (.op r) ∧ s.op.written r = false := by
  constructor
  · intro h
    obtain ⟨r, h | h⟩ | h | ⟨p, h⟩ | ⟨b, i, -, -, hx⟩ | ⟨p, rfl, hx⟩ := perform_refused h
    · cases h
    · cases h
    · cases h
    · cases h
    · simp [exec_eq_refused] at hx
    · obtain ⟨rfl, hw⟩ := (portValue_readUnwritten_iff s p r).mp hx
      exact ⟨rfl, hw⟩
  · rintro ⟨rfl, hw⟩
    exact perform_read_unwritten r s hw

/-- A step is refused exactly when the oldest pending action is. -/
theorem step_refused_iff (s : State) (x : Refusal) :
    step s = .refused x ↔ ∃ a rest, s.script = a :: rest ∧ perform a { s with script := rest } = .refused x := by
  cases h : s.script with
  | nil => simp [step, h]
  | cons a rest => simp [step_of_pending h]

/-! ### What an unwritten operand holds is never seen (R162, U22) -/

/-- Two sets of operands that differ in nothing but what unwritten registers hold. -/
def Operands.LooksLike (o o' : Operands) : Prop :=
  ∀ r : OpReg, o.written r = o'.written r ∧ (o'.written r = true → o.value r = o'.value r)

theorem Operands.LooksLike.refl (o : Operands) : o.LooksLike o := fun _ => ⟨rfl, fun _ => rfl⟩

theorem Operands.LooksLike.firstUnwritten {o o' : Operands} (h : o.LooksLike o') (i : Instr) :
    firstUnwritten i o = firstUnwritten i o' := by
  have hmarks : o.written = o'.written := funext fun r => (h r).1
  simp only [Machine.firstUnwritten, hmarks]

/-- Where a command reads only written operands its outcome is a function of them (R21); elsewhere it has none. -/
theorem Operands.LooksLike.commandOutcome {o o' : Operands} (h : o.LooksLike o') (i : Instr) :
    commandOutcome i o = commandOutcome i o' := by
  cases hf : Machine.firstUnwritten i o' with
  | none =>
    have hw := (firstUnwritten_eq_none_iff i o').mp hf
    exact commandOutcome_congr i o o' fun r hr => ⟨(h r).2 (hw r hr), (h r).1⟩
  | some r => rw [commandOutcome_eq_none hf, commandOutcome_eq_none ((h.firstUnwritten i).trans hf)]

theorem Operands.LooksLike.exec_refused {s : State} {o : Operands} (h : o.LooksLike s.op) (i : Instr) (x : Refusal) :
    exec i { s with op := o } = .refused x ↔ exec i s = .refused x := by
  simp only [exec_eq_refused, h.firstUnwritten, h.commandOutcome]

theorem Operands.LooksLike.exec_next {s t : State} {o : Operands} (h : o.LooksLike s.op) {i : Instr}
    (he : exec i s = .next t) : exec i { s with op := o } = .next { t with op := o } := by
  obtain ⟨r, hr, hc, rfl⟩ | ⟨e, hr, rfl⟩ := exec_eq_next i s t he
  · exact exec_ok i _ r ((h.commandOutcome i).trans hr) hc
  · exact exec_error i _ e ((h.commandOutcome i).trans hr)

theorem Operands.LooksLike.portValue {s : State} {o : Operands} (h : o.LooksLike s.op) (p : Port) :
    portValue { s with op := o } p = portValue s p := by
  cases p with
  | op r =>
    obtain ⟨hmark, hvalue⟩ := h r
    simp only [Machine.portValue, hmark]
    split
    · next hw => rw [hvalue hw]
    · rfl
  | _ => rfl

/-- The same host write keeps two such sets of operands alike. -/
theorem Operands.LooksLike.stores {o o' t : Operands} {r : OpReg} {v : Value} (h : o.LooksLike o')
    (ht : o'.Stores r v t) : ∃ u, o.Stores r v u ∧ u.LooksLike t := by
  obtain ⟨u, hu⟩ : ∃ u, o.Stores r v u := by
    cases ht with
    | pfx x hx => exact ⟨_, .pfx x hx⟩
    | bytes x hx => exact ⟨_, .bytes x hx⟩
    | grps x hx => exact ⟨_, .grps x hx⟩
    | type x => exact ⟨_, .type x⟩
    | ver x => exact ⟨_, .ver x⟩
    | hlen x => exact ⟨_, .hlen x⟩
  refine ⟨u, hu, fun r' => ?_⟩
  by_cases hr : r' = r
  · subst hr
    exact ⟨hu.written.trans ht.written.symm, fun _ => hu.value.trans ht.value.symm⟩
  · obtain ⟨huv, huw⟩ := hu.other hr
    obtain ⟨htv, htw⟩ := ht.other hr
    rw [huv, huw, htv, htw]
    exact h r'

theorem Operands.LooksLike.hostWrite_next {s t : State} {o : Operands} {r : OpReg} {v : Value} (h : o.LooksLike s.op)
    (hw : hostWrite r v s = .next t) :
    ∃ u, hostWrite r v { s with op := o } = .next { t with op := u } ∧ u.LooksLike t.op := by
  obtain ⟨o', ho', rfl⟩ := Machine.hostWrite_next hw
  obtain ⟨u, hu, hlike⟩ := h.stores ho'
  exact ⟨u, hu.hostWrite (s := { s with op := o }), hlike⟩

/-- One host action from two such states, where it answers. -/
theorem Operands.LooksLike.perform_next {a : HostAction} {s t : State} {o : Operands} (h : o.LooksLike s.op)
    (ht : perform a s = .next t) :
    ∃ u : Operands, perform a { s with op := o } = .next { t with op := u } ∧ u.LooksLike t.op := by
  cases a with
  | write r v => exact h.hostWrite_next ht
  | writeVar r =>
    simp only [perform, hostWriteVar] at ht ⊢
    split at ht
    · exact h.hostWrite_next ht
    · cases ht
  | writeReadOnly p => cases ht
  | command b =>
    cases hb : Sys2Proof.decode b with
    | ok i =>
      rw [perform_command_legal _ hb] at ht ⊢
      exact ⟨o, h.exec_next ht, exec_keeps_op ht ▸ h⟩
    | error e =>
      obtain rfl := Host.Outcome.next.inj ((runCommand_illegal s hb).symm.trans ht)
      exact ⟨o, runCommand_illegal _ hb, h⟩
  | read p =>
    obtain ⟨v, hv, rfl⟩ := (perform_read_eq_next p s t).mp ht
    exact ⟨o, (perform_read_eq_next ..).mpr ⟨v, (h.portValue p).trans hv, rfl⟩, h⟩
  | reset =>
    obtain rfl := Host.Outcome.next.inj ht
    exact ⟨.unwritten, rfl, .refl _⟩

/-- One host action from two such states, where it is refused. -/
theorem Operands.LooksLike.perform_refused {a : HostAction} {s : State} {o : Operands} {x : Refusal}
    (h : o.LooksLike s.op) (hx : perform a s = .refused x) : perform a { s with op := o } = .refused x := by
  cases a with
  | write r v => exact (hostWrite_refused hx).2 _
  | writeVar r =>
    simp only [perform, hostWriteVar] at hx ⊢
    split at hx
    · exact (hostWrite_refused hx).2 _
    · exact hx
  | writeReadOnly p => exact hx
  | command b =>
    cases hb : Sys2Proof.decode b with
    | ok i =>
      rw [perform_command_legal _ hb] at hx ⊢
      exact (h.exec_refused i x).mpr hx
    | error e => cases (runCommand_illegal s hb).symm.trans hx
  | read p =>
    rw [perform_read_eq_refused] at hx ⊢
    rw [h.portValue, hx]
  | reset => cases hx

/-! ### The results that overflow (R163) -/

theorem lastWritten_eq_some_iff {α : Type} (h : Held α) (v : α) : h.lastWritten = some v ↔ h = .written v := by
  cases h <;> simp

theorem regroup_length {fw tw : Nat} (h0 : 0 < tw) {pad : Bool} {x : List (BitVec fw)} {g : List (BitVec tw)}
    (h : regroup tw pad x = .ok g) :
    g.length = if pad then (fw * x.length + (tw - 1)) / tw else fw * x.length / tw := by
  cases pad with
  | true => exact regroup_pad_length h0 h
  | false => exact (regroup_noPad_natOf h0 x g h).1

/-- A text that decodes is longer than its prefix, and its hash fits every `RES.BYTES` that R7 admits. -/
theorem decodeFn_bounds {G : Generators} {a : List Byte} {d : Decoded} (h : decodeFn G a = .ok d) :
    d.pfx.length < a.length ∧ d.hash.length ≤ Config.dataMax := by
  obtain ⟨p, x, g, v, hash, rfl, -, -, -, -, -, hlen, rfl⟩ := (decodeFn_ok G a d).mp h
  have hbound := lenOf_bounds (v.extractLsb' 0 3)
  have hmax := pfxMax_add_le_dataMax
  constructor
  · simp
  · simp only
    omega

theorem grpsResult_overCapacity (g : List Group) (x : ResReg) :
    ({ Results.invalid with grps := some g } : Results).overCapacity = some x ↔
      x = .grps ∧ Config.dataMax < g.length := by
  by_cases h : Config.dataMax < g.length <;> simp [Results.overCapacity, Results.invalid, h, eq_comm]

theorem decodedResults_overCapacity {d : Decoded} (h : d.hash.length ≤ Config.dataMax) (x : ResReg) :
    (decodedResults d).overCapacity = some x ↔ x = .pfx ∧ Config.pfxMax < d.pfx.length := by
  by_cases hp : Config.pfxMax < d.pfx.length <;>
    simp [Results.overCapacity, decodedResults, Results.invalid, hp, h.not_gt, eq_comm]

theorem exec_r8to5_overflow_iff (pad : Bool) (s : State) (x : ResReg) :
    exec (.r8to5 pad) s = .refused (.resultOverCapacity x) ↔
      ∃ b g, s.op.bytes = .written b ∧ regroup 5 pad b = .ok g ∧ x = .grps ∧ Config.dataMax < g.length := by
  simp only [exec_refused_capacity_iff, commandOutcome, Option.map_eq_some_iff, lastWritten_eq_some_iff]
  constructor
  · rintro ⟨r, ⟨b, hb, hm⟩, hc⟩
    obtain ⟨g, hg, rfl⟩ := except_map_eq_ok hm
    exact ⟨b, g, hb, hg, (grpsResult_overCapacity g x).mp hc⟩
  · rintro ⟨b, g, hb, hg, hc⟩
    exact ⟨_, ⟨b, hb, by rw [hg]; rfl⟩, (grpsResult_overCapacity g x).mpr hc⟩

theorem exec_decode_overflow_iff (s : State) (x : ResReg) :
    exec .decode s = .refused (.resultOverCapacity x) ↔
      ∃ a d, s.op.bytes = .written a ∧ decodeFn Config.generator a = .ok d ∧ x = .pfx ∧
        Config.pfxMax < d.pfx.length := by
  simp only [exec_refused_capacity_iff, commandOutcome, Option.map_eq_some_iff, lastWritten_eq_some_iff]
  constructor
  · rintro ⟨r, ⟨a, ha, hm⟩, hc⟩
    obtain ⟨d, hd, rfl⟩ := except_map_eq_ok hm
    exact ⟨a, d, ha, hd, (decodedResults_overCapacity (decodeFn_bounds hd).2 x).mp hc⟩
  · rintro ⟨a, d, ha, hd, hc⟩
    exact ⟨_, ⟨a, ha, by rw [hd]; rfl⟩, (decodedResults_overCapacity (decodeFn_bounds hd).2 x).mpr hc⟩

/-- On operands within capacity the results of every other command fit. -/
theorem commandOutcome_fits {i : Instr} {o : Operands} {r : Results} (ho : o.Fits) (h8 : ∀ pad, i ≠ .r8to5 pad)
    (hd : i ≠ .decode) (h : commandOutcome i o = some (.ok r)) : r.overCapacity = none := by
  obtain ⟨hpfx, hbytes, hgrps⟩ := ho
  cases i <;> simp only [commandOutcome, Option.bind_eq_some_iff, Option.map_eq_some_iff, lastWritten_eq_some_iff] at h
  case polymod =>
    obtain ⟨g, -, ⟨⟩⟩ := h
    rfl
  case cksum =>
    obtain ⟨p, -, g, -, ⟨⟩⟩ := h
    exact checksumGroups_fit _
  case verify =>
    obtain ⟨p, -, g, -, ⟨⟩⟩ := h
    rfl
  case r8to5 pad => exact absurd rfl (h8 pad)
  case r5to8 pad =>
    obtain ⟨g, hg, hm⟩ := h
    obtain ⟨b, hb, rfl⟩ := except_map_eq_ok hm
    have hlen := regroup_length_le (by decide) hb
    rw [hg, value_written] at hgrps
    exact bytesResult_fits (by omega)
  case mkver =>
    obtain ⟨t, -, n, -, hm⟩ := h
    obtain ⟨v, -, rfl⟩ := except_map_eq_ok hm
    exact versionResults_fit v
  case verchk =>
    obtain ⟨v, -, n, -, hm⟩ := h
    obtain ⟨f, -, rfl⟩ := except_map_eq_ok hm
    rfl
  case b32enc =>
    obtain ⟨g, hg, ⟨⟩⟩ := h
    rw [hg, value_written] at hgrps
    exact bytesResult_fits (by rwa [b32Encode_length])
  case b32dec =>
    obtain ⟨x, hx, hm⟩ := h
    obtain ⟨g, hg, rfl⟩ := except_map_eq_ok hm
    rw [hx, value_written, ((b32Decode_ok x g).mp hg).length] at hbytes
    exact grpsResult_fits hbytes
  case encode =>
    obtain ⟨p, hp, t, -, hash, -, hm⟩ := h
    obtain ⟨text, htext, rfl⟩ := except_map_eq_ok hm
    obtain ⟨-, -, sc, g, hlen, hg, rfl⟩ := (encodeFn_ok_iff ..).mp htext
    rw [hp, value_written] at hpfx
    exact bytesResult_fits (assemble_fits hpfx (dataGroups_length_le hlen hg) _)
  case decode => exact absurd rfl hd

/-- So none of these is refused for a capacity. -/
theorem exec_not_overflow {i : Instr} {s : State} (ho : s.op.Fits) (h8 : ∀ pad, i ≠ .r8to5 pad) (hd : i ≠ .decode)
    (x : ResReg) : exec i s ≠ .refused (.resultOverCapacity x) := by
  intro h
  obtain ⟨r, hr, hc⟩ := (exec_refused_capacity_iff i s x).mp h
  cases (commandOutcome_fits ho h8 hd hr).symm.trans hc

/-! ### The obligations -/

/-- Settles O12: a command has an outcome exactly where it reads no unwritten operand, and `finish` is its end. -/
theorem unwrittenOperandRefusesTheCommand : Obligations.UnwrittenOperandRefusesTheCommand := by
  refine ⟨fun i s r hr hw => ?_, fun i s hw => ?_, fun b e s hb => ⟨_, runCommand_illegal s hb, errorStatus_done _⟩⟩
  · obtain ⟨r', hr'⟩ := (exists_firstUnwritten_iff i s.op).mpr ⟨r, hr, hw⟩
    obtain ⟨hread, hunwritten⟩ := firstUnwritten_spec i s.op r' hr'
    exact ⟨r', hread, hunwritten, (exec_refused_unwritten_iff i s r').mpr hr'⟩
  · have hnone := (firstUnwritten_eq_none_iff i s.op).mpr hw
    cases h : exec i s with
    | next t => exact .inl ⟨t, rfl, exec_done h, exec_st_ne_illegalCommand h⟩
    | fault f => cases f
    | refused x =>
      obtain ⟨r, hr, -⟩ | ⟨-, reg, -, -, rfl⟩ := (exec_eq_refused i s x).mp h
      · cases hnone.symm.trans hr
      · exact .inr ⟨reg, rfl⟩

/-- Settles O13: the two commands that can overflow, each by the length of its result; the others' results fit
(`commandOutcome_fits`). -/
theorem resultOverflowsInExactlyTwoCases : Obligations.ResultOverflowsInExactlyTwoCases := by
  refine ⟨fun s x hx => if_neg hx.not_ge, fun s x hx => if_neg hx.not_ge, fun s x hx => if_neg hx.not_ge,
    fun i s x hp hb hg => ?_⟩
  cases i with
  | r8to5 pad =>
    rw [exec_r8to5_overflow_iff]
    constructor
    · rintro ⟨b, g, hw, hreg, rfl, hlt⟩
      exact .inl ⟨pad, b, g, rfl, rfl, hw, hreg, regroup_length (by decide) hreg ▸ hlt⟩
    · rintro (⟨_, b, g, ⟨⟩, rfl, hw, hreg, hlt⟩ | ⟨_, _, ⟨⟩, _⟩)
      exact ⟨b, g, hw, hreg, rfl, regroup_length (by decide) hreg ▸ hlt⟩
  | decode =>
    rw [exec_decode_overflow_iff]
    constructor
    · rintro ⟨a, d, hw, hdec, rfl, hlt⟩
      exact .inr ⟨a, d, rfl, rfl, hw, hdec, hlt, (decodeFn_bounds hdec).1⟩
    · rintro (⟨_, _, _, ⟨⟩, _⟩ | ⟨a, d, -, rfl, hw, hdec, hlt, -⟩)
      exact ⟨a, d, hw, hdec, rfl, hlt⟩
  | _ =>
    refine iff_of_false (exec_not_overflow ⟨hp, hb, hg⟩ (by nofun) (by nofun) x) ?_
    rintro (⟨_, _, _, ⟨⟩, _⟩ | ⟨_, _, ⟨⟩, _⟩)

/-- Settles O16: O14 on two states with the same operands. -/
theorem resetIsNotNeededBetweenCommands : Obligations.ResetIsNotNeededBetweenCommands := fun i s t =>
  resultDependsOnlyOnOperandsRead i _ s t fun _ _ => ⟨rfl, rfl⟩

/-- Settles O56, by the grounds on which a host action is refused. -/
theorem refusedActionHasNoTransition : Obligations.RefusedActionHasNoTransition := by
  constructor
  · intro s
    simp only [step_refused_iff, perform_refused_unwritten_iff, ← exists_firstUnwritten_iff]
    constructor
    · rintro ⟨r, _, rest, hs, b, i, rfl, hb, hr⟩
      exact ⟨b, rest, i, hs, hb, r, hr⟩
    · rintro ⟨b, rest, i, hs, hb, r, hr⟩
      exact ⟨r, _, rest, hs, b, i, rfl, hb, hr⟩
  · intro s r
    simp only [step_refused_iff, perform_refused_readUnwritten_iff]
    constructor
    · rintro ⟨_, rest, hs, rfl, hw⟩
      exact ⟨rest, hs, hw⟩
    · rintro ⟨rest, hs, hw⟩
      exact ⟨_, rest, hs, rfl, hw⟩

/-- Settles O58: every host action keeps operands that look alike alike, and is refused on both or on neither. -/
theorem unwrittenValueIsNeverSeen : Obligations.UnwrittenValueIsNeverSeen := fun _ _ _ h =>
  ⟨fun _ => Operands.LooksLike.perform_next h, fun _ => Operands.LooksLike.perform_refused h⟩

/-- Settles O1; no command leaves `ST` at 0, since each that ends sets `DONE`. -/
theorem resetLeavesNothingWrittenOrValid : Obligations.ResetLeavesNothingWrittenOrValid := by
  refine ⟨⟨rfl, rfl, rfl⟩, fun s => ⟨_, rfl, rfl, rfl, rfl⟩, Operands.unwritten_written, fun x => by cases x <;> rfl,
    fun i s t h => ⟨fun hst => ?_, exec_keeps_op h⟩, fun s => rfl⟩
  have hdone := exec_done h
  rw [hst] at hdone
  cases hdone

end Sys2Proof.Machine
